-- ==== Sys2Proof/Word.lean ====
section
/-! DEFINITION. The two widths of BOE: a byte of a sequence (R6) and an interface register of `LENW` = 32 bits
(R5, decision D4; log entry 3). -/

namespace Sys2Proof

/-- An element of a byte sequence: an 8-bit unsigned value (R6). -/
abbrev Byte := BitVec 8

/-- The content of an interface register: an unsigned value of `LENW` = 32 bits (R5, R11). -/
abbrev Word := BitVec 32

end Sys2Proof
end

