-- ==== Sys2Proof/Config.lean ====
section
/-! DEFINITION. The parameters of an instance of BOE (R5), and the two free values of the model: the byte a host read
of an unwritten cell returns (U2 of spec/93) and a byte the random source supplies (S3, S5 of spec/93, R78). -/

namespace Sys2Proof

/-- The failure value an instance leaves in its output buffer, fixed for its life (R5, R91). -/
inductive FailPolicy where
  /-- The empty sequence. -/
  | empty
  /-- The 11 bytes of the text FATAL ERROR. -/
  | marker
  deriving DecidableEq, Repr

/-- The parameters of one instance (the table of R5). A model takes them as arguments: `State` carries them in a
field no step changes (log entry 1), so a claim over all states is a claim over all instances. -/
structure Config where
  /-- `DCAP`, the largest payload length. -/
  dcap : Nat
  /-- `KCAP`, the largest key count. -/
  kcap : Nat
  /-- `FAIL_POLICY`. -/
  failPolicy : FailPolicy
  /-- `HAS_KGEN`: does the command KGEN exist. -/
  hasKgen : Bool
  /-- `KEY_MIN`, the lowest byte KGEN may produce: 0 or 1. -/
  keyMin : Fin 2
  deriving DecidableEq, Repr

/-- The constraints of R5 on the parameters, with `LENW` = 32. -/
abbrev Config.Valid (c : Config) : Prop :=
  1 ≤ c.dcap ∧ 1 ≤ c.kcap ∧ max (max (c.dcap + 3) c.kcap) 11 < 2 ^ 32

/-- The instance `State.reset` stands for. DESIGN CHOICE (log entry 2): the largest capacities R5 admits, since R5
leaves `DCAP` and `KCAP` open; KGEN present, as R5 and D13 allow a model that wants the key generator;
`FAIL_POLICY` and `KEY_MIN` at the values R5 states. -/
def Config.standard : Config where
  dcap := 4294967292
  kcap := 4294967295
  failPolicy := .empty
  hasKgen := true
  keyMin := 0

/-- Free value (log entry 7): the byte a host read of an unwritten cell returns. Nothing constrains it. -/
opaque Config.freeByte : Nat → Byte

/-- Free value (log entry 8): a byte the random source supplies when the host has supplied no list of draws.
Nothing constrains it. -/
opaque Config.freeDraw : Nat → Byte

end Sys2Proof
end

