-- ==== Sys2Proof/Syntax.lean ====
section
/-! DEFINITION. The commands of BOE, one constructor per row of spec/opcode_table.json (R44). Their operands are
implicit (R43), so no constructor carries one. -/

namespace Sys2Proof

/-- The three commands of R44. -/
inductive Instr where
  /-- ENC, the source's `encrypt(plaintext, keys)` (R67). -/
  | enc
  /-- DEC, the source's `decrypt(ciphertext, keys)` (R71). -/
  | dec
  /-- KGEN, the source's `generateKeys(count)` (R76); it exists where `HAS_KGEN` is true (R44). -/
  | kgen
  deriving DecidableEq, Repr

end Sys2Proof
end

