-- ==== Sys2Proof/WellFormed.lean ====
section
/-! DEFINITION. Which commands an instance has (the column 'exists when' of R44). -/

namespace Sys2Proof

/-- ENC and DEC exist always, KGEN where `HAS_KGEN` is true (R44). A command has no operand that could be ill
formed (R43). -/
def Instr.wf (c : Config) : Instr → Bool
  | .enc => true
  | .dec => true
  | .kgen => c.hasKgen

end Sys2Proof
end

