-- ==== Sys2Proof/Decode.lean ====
section
/-! DEFINITION. The command word `CW` (R42), the total decoder (R45, R48) and the encoder (R44). -/

namespace Sys2Proof

/-- Why a command word is reserved: the three kinds R45 lists. -/
inductive Reserved where
  /-- The field `zero`, bits [31:8], is not 0 (R46). -/
  | zeroField
  /-- `op` is 0x00 or one of 0x04 to 0xFF. -/
  | unassignedOp
  /-- `op` is 0x03 and the instance has no KGEN. -/
  | kgenAbsent
  deriving DecidableEq, Repr

/-- Bits [7:0] of a command word (R42). -/
def opField (v : Word) : Byte := v.extractLsb' 0 8

/-- Bits [31:8] of a command word (R42). -/
def zeroField (v : Word) : BitVec 24 := v.extractLsb' 8 24

/-- The decoder: every word is ENC, DEC, KGEN or reserved (R45, R48). It reads the two fields of R42 and checks
`zero`, as R46 requires. -/
def decode (c : Config) (v : Word) : Except Reserved Instr :=
  if zeroField v ≠ 0 then .error .zeroField
  else if opField v = 0x01#8 then .ok .enc
  else if opField v = 0x02#8 then .ok .dec
  else if opField v = 0x03#8 then
    if c.hasKgen then .ok .kgen else .error .kgenAbsent
  else .error .unassignedOp

/-- The command word of each command (the table of R44). -/
def encode : Instr → Word
  | .enc => 0x00000001#32
  | .dec => 0x00000002#32
  | .kgen => 0x00000003#32

/-- The host's question about a row of spec/opcode_table.json: the command the decoder reads from the word `w` of
`nbits` bits, on the instance `State.reset` stands for. A command word has 32 bits (R42), so a longer number is no
command word (log entry 19). -/
def decodeTableWord (nbits w : Nat) : Option Instr :=
  if w % 2 ^ nbits < 2 ^ 32 then
    match decode Config.standard (BitVec.ofNat 32 (w % 2 ^ nbits)) with
    | .ok i => some i
    | .error _ => none
  else none

/-- ENC's word, written out from R42 and R44: `zero` = 0, `op` = 00000001. -/
theorem decode_enc_word (c : Config) :
    decode c 0b000000000000000000000000_00000001#32 = .ok .enc := rfl

/-- DEC's word: `zero` = 0, `op` = 00000010. -/
theorem decode_dec_word (c : Config) :
    decode c 0b000000000000000000000000_00000010#32 = .ok .dec := rfl

/-- KGEN's word: `zero` = 0, `op` = 00000011, on an instance with `HAS_KGEN` true. -/
theorem decode_kgen_word :
    decode Config.standard 0b000000000000000000000000_00000011#32 = .ok .kgen := rfl

end Sys2Proof
end

