-- ==== Sys2Proof/Machine/State.lean ====
section
/-! DEFINITION. The state of one BOE instance (R26), the host's transactions (R33, R34, R97) and replies, the reasons
a step can stop, and the state after reset (R24, R25). -/

namespace Sys2Proof.Machine

/-- The three byte spaces (R27). -/
inductive Space where
  /-- The input data buffer (R18). -/
  | ibuf
  /-- The key buffer (R19). -/
  | kbuf
  /-- The output buffer (R20). -/
  | obuf
  deriving DecidableEq, Repr

/-- The five interface registers (R11). -/
inductive Reg where
  /-- Register 0, the trigger; it stores nothing (R12). -/
  | cmd
  /-- Register 1 (R16). -/
  | status
  /-- Register 2 (R13). -/
  | dlen
  /-- Register 3 (R14). -/
  | klen
  /-- Register 4 (R15). -/
  | olen
  deriving DecidableEq, Repr

/-- The seven result codes (R81). -/
inductive ResultCode where
  | ok
  | errEmptyData
  | errEmptyKeys
  | errShort
  | errSig
  | errIllcmd
  | errLen
  deriving DecidableEq, Repr

/-- What the host can do to the block: the transactions of R33 and R34 and reset (R97). Register numbers and
indices are plain numbers, since a transaction may name something that does not exist (R38). -/
inductive Transaction where
  | regRead (r : Nat)
  | regWrite (r : Nat) (v : Word)
  | bufRead (sp : Space) (i : Nat)
  | bufWrite (sp : Space) (i : Nat) (b : Byte)
  | reset
  deriving DecidableEq, Repr

/-- What a read transaction returns to the host (R33, R34). -/
inductive Reply where
  | word (v : Word)
  | byte (b : Byte)
  deriving DecidableEq, Repr

/-- The content of one buffer: the written cells, by rising index. A cell that is not listed is unwritten and holds
no value (R21), so the list is also the written marks. -/
abbrev Memory := List Host.Cell

/-- The state of one instance. `code`, `done`, `dlen`, `klen`, `olen` and the three buffers with their written marks
are the whole architectural state (R26); the other fields are the model's own (log entries 1, 4, 5, 7, 8). -/
structure State where
  /-- The instance parameters (R5); no step changes them. The model's own field (log entry 1). -/
  cfg : Config
  /-- STATUS.CODE (R16). -/
  code : ResultCode
  /-- STATUS.DONE (R16). -/
  done : Bool
  /-- DLEN (R13). -/
  dlen : Word
  /-- KLEN (R14). -/
  klen : Word
  /-- OLEN (R15). -/
  olen : Word
  /-- IBUF (R18). -/
  ibuf : Memory
  /-- KBUF (R19). -/
  kbuf : Memory
  /-- OBUF (R20). -/
  obuf : Memory
  /-- The host's transactions that have not yet taken effect, oldest first (R40). The model's own field
  (log entry 4). -/
  pending : List Transaction
  /-- What the host's reads returned, oldest first. The model's own field (log entry 5). -/
  replies : List Reply
  /-- The draws the random source has been given to supply, next first (R78). The model's own field
  (log entry 8). -/
  draws : List Byte
  /-- The number of free values used so far. The model's own field (log entries 7, 8). -/
  fresh : Nat
  deriving DecidableEq, Repr

/-- Why the machine stops. -/
inductive Fault where
  /-- Raised by ENC or DEC when its input sequence includes a cell never written since reset (R21, U1 of spec/93:
  the command has no defined result). Safe: a real block would go on with whatever the cell holds (log entry 6). -/
  | unwrittenCell (sp : Space) (i : Nat)
  deriving DecidableEq, Repr

/-- What the model gives no meaning to. -/
inductive Refusal where
  /-- Raised by an arm of `exec` for an instruction without a meaning; no arm does so. Safe. -/
  | notModelled (mnemonic : String)
  /-- Raised by a host transaction that names a register number above 4 (R38, U5 of spec/93). Safe
  (log entry 10). -/
  | noSuchRegister (r : Nat)
  /-- Raised by a host transaction whose index is at or above the capacity of its space (R38, U5 of spec/93). Safe
  (log entry 10). -/
  | noSuchCell (sp : Space) (i : Nat)
  /-- Raised by a source call (R52) one of whose sequences has `length` bytes, where the capacity R52 names for it is
  `limit`: the call has no counterpart (U4 of spec/93). No step raises it. Safe (log entry 20). -/
  | sequenceTooLong (length limit : Nat)
  /-- Raised where EKD is applied outside its preconditions (R53, U3 of spec/93); no command does so. Safe
  (log entry 11). -/
  | ekdUndefined
  deriving DecidableEq, Repr

/-- An instance with parameters `c` right after reset (R24, R25): registers 0, every cell unwritten. The model's own
lists are empty (log entries 4, 5, 8). -/
def State.resetOf (c : Config) : State where
  cfg := c
  code := .ok
  done := false
  dlen := 0
  klen := 0
  olen := 0
  ibuf := []
  kbuf := []
  obuf := []
  pending := []
  replies := []
  draws := []
  fresh := 0

/-- The machine right after reset, with the parameters of log entry 2. -/
def State.reset : State := State.resetOf Config.standard

end Sys2Proof.Machine
end

