-- ==== Sys2Proof/Machine/Flags.lean ====
section
/-! DEFINITION. The only flags of BOE, STATUS.CODE and STATUS.DONE (R16, R17): the numbers of the result codes, the
STATUS word a host reads, and how a command writes both. -/

namespace Sys2Proof.Machine

/-- The number of a result code, bits [3:0] of STATUS (R81). -/
def codeNumber : ResultCode → BitVec 4
  | .ok => 0
  | .errEmptyData => 1
  | .errEmptyKeys => 2
  | .errShort => 3
  | .errSig => 4
  | .errIllcmd => 5
  | .errLen => 6

/-- STATUS as a host reads it (R16): bits [31:5] are 0, bit 4 is DONE, bits [3:0] are CODE. -/
def statusWord (s : State) : Word :=
  (0#27 ++ BitVec.ofBool s.done) ++ codeNumber s.code

/-- Every command writes both flags (R17): `STATUS.DONE <- 1`, `STATUS.CODE <- c`. -/
def setStatus (c : ResultCode) (s : State) : State :=
  { s with code := c, done := true }

end Sys2Proof.Machine
end

