-- ==== Sys2Proof/Machine/Ops.lean ====
section
/-! DEFINITION. The named operations over buffers, registers and draws, and the failure procedure (R90), BOE's only
kind of exception. There is no return from it (R92). -/

namespace Sys2Proof.Machine

/-- SIG, the three bytes `3B 2D 29` (R5). Taken as the spec gives them (log entry 16). -/
def SIG : List Byte := [0x3B, 0x2D, 0x29]

/-- MARKER, the text FATAL ERROR in ASCII (R5; log entry 16). -/
def MARKER : List Byte :=
  [0x46, 0x41, 0x54, 0x41, 0x4C, 0x20, 0x45, 0x52, 0x52, 0x4F, 0x52]

/-- The number of cells of a space (R5): ICAP, KCAP, OCAP. -/
def capacity (c : Config) : Space → Nat
  | .ibuf => c.dcap + 3
  | .kbuf => c.kcap
  | .obuf =>
    match c.failPolicy with
    | .empty => c.dcap + 3
    | .marker => max (c.dcap + 3) 11

/-- `MemRead(S:i, 1)`: the value of cell `i`, none where it is unwritten (R21). -/
def Memory.read : Memory → Nat → Option Byte
  | [], _ => none
  | (a, b) :: rest, i => if a = i then some b else Memory.read rest i

/-- `MemWrite(S:i, 1, b)`: cell `i` becomes written with value `b`; the list stays sorted by index. -/
def Memory.write : Memory → Nat → Byte → Memory
  | [], i, b => [(i, b)]
  | (a, c) :: rest, i, b =>
    if i < a then (i, b) :: (a, c) :: rest
    else if i = a then (i, b) :: rest
    else (a, c) :: Memory.write rest i b

/-- The bytes of a sequence written to the cells from `i` on, in index order. -/
def Memory.writeSeq : Memory → Nat → List Byte → Memory
  | m, _, [] => m
  | m, i, b :: bs => Memory.writeSeq (m.write i b) (i + 1) bs

/-- The buffer whose cells from `i` on hold a sequence and whose other cells are unwritten. -/
def Memory.ofSeq : Nat → List Byte → Memory
  | _, [] => []
  | i, b :: bs => (i, b) :: Memory.ofSeq (i + 1) bs

/-- `[ MemRead(S:j, 1) for j from i to i + n - 1 ]`: the sequence, or the index of the first unwritten cell. -/
def Memory.readSeq (m : Memory) : Nat → Nat → Except Nat (List Byte)
  | _, 0 => .ok []
  | i, n + 1 =>
    match m.read i with
    | none => .error i
    | some b =>
      match Memory.readSeq m (i + 1) n with
      | .ok bs => .ok (b :: bs)
      | .error j => .error j

/-- The buffer of a space. -/
def buffer (s : State) : Space → Memory
  | .ibuf => s.ibuf
  | .kbuf => s.kbuf
  | .obuf => s.obuf

/-- The register a number names; numbers above 4 name none (R11, R38). -/
def regOfNumber : Nat → Option Reg
  | 0 => some .cmd
  | 1 => some .status
  | 2 => some .dlen
  | 3 => some .klen
  | 4 => some .olen
  | _ => none

/-- `x[r]` as a host reads it (R34): CMD reads 0 at all times (R12). -/
def readReg (s : State) : Reg → Word
  | .cmd => 0
  | .status => statusWord s
  | .dlen => s.dlen
  | .klen => s.klen
  | .olen => s.olen

/-- A host write of a register other than CMD (R34): DLEN and KLEN store any value unchanged, writes of STATUS and
OLEN are ignored. A write of CMD is no store (R12): it is `commandWrite` of Machine/Transact.lean. -/
def storeReg (r : Reg) (v : Word) (s : State) : State :=
  match r with
  | .dlen => { s with dlen := v }
  | .klen => { s with klen := v }
  | .cmd => s
  | .status => s
  | .olen => s

/-- A host write of a byte within range (R33): IBUF and KBUF store it, a write to OBUF is ignored. -/
def storeByte (sp : Space) (i : Nat) (b : Byte) (s : State) : State :=
  match sp with
  | .ibuf => { s with ibuf := s.ibuf.write i b }
  | .kbuf => { s with kbuf := s.kbuf.write i b }
  | .obuf => s

/-- The host receives what its read returned (log entry 5). -/
def pushReply (r : Reply) (s : State) : State :=
  { s with replies := s.replies ++ [r] }

/-- The result sequence `bs` is left in OBUF and OLEN; OBUF cells at or above its length become unspecified
(R15, R20), that is unwritten (R21). -/
def setResult (bs : List Byte) (s : State) : State :=
  { s with obuf := Memory.ofSeq 0 bs, olen := BitVec.ofNat 32 bs.length }

/-- A successful ENC or DEC (the last steps of R67 and R71). -/
def finish (bs : List Byte) (s : State) : State :=
  setStatus .ok (setResult bs s)

/-- The failure value of a policy (R91). -/
def failureValue : FailPolicy → List Byte
  | .empty => []
  | .marker => MARKER

/-- The failure procedure `raise Fail(code)` (R90). -/
def raiseFail (c : ResultCode) (s : State) : State :=
  setStatus c (setResult (failureValue s.cfg.failPolicy) s)

/-- A draw within `KEY_MIN .. 255` (R77, R78): a byte the source supplies counts as it stands where it is in the
range, and a 00 under `KEY_MIN` = 1 counts as 01 (log entry 8). -/
def drawInRange (c : Config) (d : Byte) : Byte :=
  if d.toNat < c.keyMin.val then BitVec.ofNat 8 c.keyMin.val else d

/-- `draw(KEY_MIN, 255)`: the next supplied draw, or a free value where the host supplied none (R78). -/
def takeDraw (s : State) : Byte × State :=
  match s.draws with
  | d :: rest => (drawInRange s.cfg d, { s with draws := rest })
  | [] => (drawInRange s.cfg (Config.freeDraw s.fresh), { s with fresh := s.fresh + 1 })

/-- `n` draws in order (R78: one value per generated byte, in index order). -/
def takeDraws : Nat → State → List Byte × State
  | 0, s => ([], s)
  | n + 1, s =>
    let (b, s₁) := takeDraw s
    let (bs, s₂) := takeDraws n s₁
    (b :: bs, s₂)

/-- The reset event (R97): STATUS, DLEN, KLEN and OLEN become 0 and every cell unwritten; no other effect
(log entry 13). -/
def applyReset (s : State) : State :=
  { s with
    code := .ok, done := false, dlen := 0, klen := 0, olen := 0, ibuf := [], kbuf := [], obuf := [] }

end Sys2Proof.Machine
end

