-- ==== Sys2Proof/Machine/Units.lean ====
section
/-! DEFINITION. The four datapath units as functions on byte sequences (R53 to R60) and their two compositions
(R61). No unit has state and the host cannot start one (R61). -/

namespace Sys2Proof.Machine

/-- The loop of the accumulate path from key index `k` on: `EK[k mod n] <- EK[k mod n] XOR K[k]` (R54). -/
def accumulate (n : Nat) : Nat → List Byte → List Byte → List Byte
  | _, [], ek => ek
  | k, b :: ks, ek => accumulate n (k + 1) ks (ek.modify (k % n) (· ^^^ b))

/-- The accumulate path, for `n <= len(K)` (R54): from `n` bytes 00, fold every key in. -/
def ekdAcc (n : Nat) (K : List Byte) : List Byte :=
  accumulate n 0 K (List.replicate n 0)

/-- The repeat path, for `1 <= len(K) < n` (R55): `EK[i] <- K[i mod m]`. -/
def ekdRep (n : Nat) (K : List Byte) (hK : 0 < K.length) : List Byte :=
  (List.range n).map fun i => K[i % K.length]'(Nat.mod_lt i hK)

/-- EKD (R53): the accumulate path where `m >= n`, else the repeat path. Outside its preconditions `n >= 1` and
`m >= 1` it is not defined (U3 of spec/93; log entry 11). -/
def ekd (n : Nat) (K : List Byte) : Option (List Byte) :=
  if h : 0 < n ∧ 0 < K.length then
    if n ≤ K.length then some (ekdAcc n K) else some (ekdRep n K h.2)
  else none

/-- XMASK (R57): bytewise XOR of two sequences of one length. -/
def xmask (D EK : List Byte) : List Byte :=
  List.zipWith (· ^^^ ·) D EK

/-- BREV (R58): the bytes in mirrored order, `R[j] = M[n - 1 - j]`. -/
def brev (M : List Byte) : List Byte := M.reverse

/-- SIGT append (R59): the sequence followed by SIG. -/
def sigtAppend (R : List Byte) : List Byte := R ++ SIG

/-- SIGT validate (R60), for `len(C) >= 4`: the last three bytes are SIG, in order. -/
def sigtValidate (C : List Byte) : Bool :=
  C.drop (C.length - 3) == SIG

/-- The composition ENC performs (R61), from the plaintext and the key sequence. -/
def encrypt (P K : List Byte) : Option (List Byte) :=
  match ekd P.length K with
  | some EK => some (sigtAppend (brev (xmask P EK)))
  | none => none

/-- The composition DEC performs once the signature is valid (R61), from the ciphertext and the key sequence; the
path is chosen by the payload length `len(C) - 3` (R71). -/
def decrypt (C K : List Byte) : Option (List Byte) :=
  match ekd (C.length - 3) K with
  | some EK => some (xmask (brev (C.take (C.length - 3))) EK)
  | none => none

end Sys2Proof.Machine
end

