-- ==== Sys2Proof/Machine/Operands.lean ====
section
/-! DEFINITION. The one operand form of BOE, implicit (R43): the sequence in the cells of a buffer below a length
register, `IBUF[0 .. x[DLEN])` or `KBUF[0 .. x[KLEN])`; what a command does where a cell of it is unwritten; and how a
command leaves its result. The lengths are the registers' unsigned values as they stand (R43). -/

namespace Sys2Proof.Machine

/-- The outcome of a command or a transaction. -/
abbrev Answer := Host.Outcome State Fault Refusal

/-- Read `S[0 .. n)` and go on with it. A command that reads an unwritten cell has no defined result (R21, U1 of
spec/93): it faults at the first such cell (log entry 6). -/
def withSeq (s : State) (sp : Space) (n : Nat) (k : List Byte → Answer) : Answer :=
  match (buffer s sp).readSeq 0 n with
  | .ok bs => k bs
  | .error i => .fault (.unwrittenCell sp i)

/-- Leave the result of a unit composition as a successful command does. The refusal is EKD outside its
preconditions (U3 of spec/93), which the commands exclude first. -/
def finishWith (r : Option (List Byte)) (s : State) : Answer :=
  match r with
  | some bs => .next (finish bs s)
  | none => .refused .ekdUndefined

end Sys2Proof.Machine
end

