-- ==== Sys2Proof/Machine/Decrypt.lean ====
section
/-! DEFINITION. The command DEC (R71). -/

namespace Sys2Proof.Machine

/-- DEC (R71): the checks in the order of R89; the ciphertext is read and its signature tested before KBUF is read
(R85; log entry 12); then `XMASK(BREV(C[0 .. n)), EKD(n, K))` into OBUF. -/
def execDec (s : State) : Answer :=
  if s.dlen.toNat > s.cfg.dcap + 3 ∨ s.klen.toNat > s.cfg.kcap then .next (raiseFail .errLen s)
  else if s.klen.toNat = 0 then .next (raiseFail .errEmptyKeys s)
  else if s.dlen.toNat < 4 then .next (raiseFail .errShort s)
  else
    withSeq s .ibuf (s.dlen.toNat) fun C =>
      if sigtValidate C then
        withSeq s .kbuf (s.klen.toNat) fun K => finishWith (decrypt C K) s
      else .next (raiseFail .errSig s)

end Sys2Proof.Machine
end

