-- ==== Sys2Proof/Machine/Encrypt.lean ====
section
/-! DEFINITION. The command ENC (R67). -/

namespace Sys2Proof.Machine

/-- ENC (R67): the checks in the order of R89, then `SIGT_append(BREV(XMASK(P, EKD(n, K))))` into OBUF. -/
def execEnc (s : State) : Answer :=
  if s.dlen.toNat > s.cfg.dcap ∨ s.klen.toNat > s.cfg.kcap then .next (raiseFail .errLen s)
  else if s.dlen.toNat = 0 then .next (raiseFail .errEmptyData s)
  else if s.klen.toNat = 0 then .next (raiseFail .errEmptyKeys s)
  else
    withSeq s .ibuf (s.dlen.toNat) fun P =>
      withSeq s .kbuf (s.klen.toNat) fun K =>
        finishWith (encrypt P K) s

end Sys2Proof.Machine
end

