-- ==== Sys2Proof/Machine/Keygen.lean ====
section
/-! DEFINITION. The adjunct command KGEN (R76). -/

namespace Sys2Proof.Machine

/-- KGEN (R76): `x[KLEN]` draws into KBUF; OLEN and OBUF keep what they held. On an instance without KGEN its word is
reserved and fails with ERR_ILLCMD (R45; log entry 9). -/
def execKgen (s : State) : Answer :=
  if s.cfg.hasKgen then
    if s.klen.toNat > s.cfg.kcap then .next (raiseFail .errLen s)
    else
      let (bs, s₁) := takeDraws s.klen.toNat s
      .next (setStatus .ok { s₁ with kbuf := s₁.kbuf.writeSeq 0 bs })
  else .next (raiseFail .errIllcmd s)

end Sys2Proof.Machine
end

