-- ==== Sys2Proof/Machine/Transact.lean ====
section
/-! DEFINITION. How a host transaction takes effect (R33, R34, R49, R97), and the taking of the next one (R40). -/

namespace Sys2Proof.Machine

/-- A write of the value `v` to CMD (R49): the word is decoded, a reserved one runs the failure procedure with
ERR_ILLCMD, any other runs its command, all inside this one transaction (R35). -/
def commandWrite (v : Word) (s : State) : Answer :=
  match decode s.cfg v with
  | .ok i => exec i s
  | .error _ => .next (raiseFail .errIllcmd s)

/-- `RegRead(r)` (R34): the host receives the register's value; no state changes. -/
def performRegRead (r : Nat) (s : State) : Answer :=
  match regOfNumber r with
  | some reg => .next (pushReply (.word (readReg s reg)) s)
  | none => .refused (.noSuchRegister r)

/-- `RegWrite(r, v)` (R34). -/
def performRegWrite (r : Nat) (v : Word) (s : State) : Answer :=
  match regOfNumber r with
  | some .cmd => commandWrite v s
  | some reg => .next (storeReg reg v s)
  | none => .refused (.noSuchRegister r)

/-- `BufRead(S, i)` (R33): the host receives the cell's value; for an unwritten cell an unspecified byte, a free
value (U2 of spec/93; log entry 7). -/
def performBufRead (sp : Space) (i : Nat) (s : State) : Answer :=
  if i < capacity s.cfg sp then
    match (buffer s sp).read i with
    | some b => .next (pushReply (.byte b) s)
    | none => .next (pushReply (.byte (Config.freeByte s.fresh)) { s with fresh := s.fresh + 1 })
  else .refused (.noSuchCell sp i)

/-- `BufWrite(S, i, b)` (R33). -/
def performBufWrite (sp : Space) (i : Nat) (b : Byte) (s : State) : Answer :=
  if i < capacity s.cfg sp then .next (storeByte sp i b s) else .refused (.noSuchCell sp i)

/-- The effect of one host transaction. -/
def perform : Transaction → State → Answer
  | .regRead r, s => performRegRead r s
  | .regWrite r v, s => performRegWrite r v s
  | .bufRead sp i, s => performBufRead sp i s
  | .bufWrite sp i b, s => performBufWrite sp i b s
  | .reset, s => .next (applyReset s)

/-- The oldest pending transaction takes effect (R40); with none pending the block is idle and keeps its state
(R99, R112). -/
def transact (s : State) : Answer :=
  match s.pending with
  | [] => .next s
  | t :: rest => perform t { s with pending := rest }

/-- The host's next transaction becomes the one given. -/
def issueFirst (t : Transaction) (s : State) : State :=
  { s with pending := t :: s.pending }

/-- The host's next transaction becomes a write of the word `w` of `nbits` bits to CMD; a number of more than 32
bits is no command word, and no transaction can carry it (log entry 19). -/
def issueCommandWord (nbits w : Nat) (s : State) : State :=
  if w % 2 ^ nbits < 2 ^ 32 then issueFirst (.regWrite 0 (BitVec.ofNat 32 (w % 2 ^ nbits))) s else s

end Sys2Proof.Machine
end

