-- ==== Sys2Proof/Machine/Step.lean ====
section
/-! DEFINITION. One step of the machine, and the host's way to make a given command word the next thing it runs. -/

namespace Sys2Proof.Machine

/-- One step: the oldest pending host transaction takes effect, a command included, as one atomic transition
(R35, R40). -/
def step (s : State) : Host.Outcome State Fault Refusal := transact s

/-- `s` with a write of the command word `w` as the host's next transaction (log entry 4). -/
def State.withFetchWord (s : State) (nbits w : Nat) : State := issueCommandWord nbits w s

end Sys2Proof.Machine
end

