-- ==== Sys2Proof/Machine/Script.lean ====
section
/-! DEFINITION. Host scripts (R50, R51, R52): the pseudo-lines as the lists of transactions they expand to, and the
source's three calls with what each returns. The five primitive lines of R50 are the constructors of `Transaction`. -/

namespace Sys2Proof.Machine

/-- The name of a space in a listing (R50). -/
def spaceName : Space → String
  | .ibuf => "IBUF"
  | .kbuf => "KBUF"
  | .obuf => "OBUF"

/-- The last `n` hexadecimal digits of a number, most significant first (R6). -/
def hexDigits : Nat → Nat → String
  | 0, _ => ""
  | n + 1, v => hexDigits n (v / 16) ++ String.singleton ("0123456789ABCDEF".toList.getD (v % 16) '0')

/-- The encoding of a line in a program listing (the last column of R50; register values in 8 digits, as the listings
of spec/95 have them). -/
def scriptListing : Transaction → String
  | .regWrite r v => "W " ++ toString r ++ " " ++ hexDigits 8 v.toNat
  | .regRead r => "R " ++ toString r
  | .bufWrite sp i b => "WB " ++ spaceName sp ++ " " ++ toString i ++ " " ++ hexDigits 2 b.toNat
  | .bufRead sp i => "RB " ++ spaceName sp ++ " " ++ toString i
  | .reset => "RESET"

/-- `wb S[i], b0; wb S[i + 1], b1; ...` -/
def scriptBytes (sp : Space) : Nat → List Byte → List Transaction
  | _, [] => []
  | i, b :: bs => .bufWrite sp i b :: scriptBytes sp (i + 1) bs

/-- `rb OBUF[i]` for the `n` indices from `i` on. -/
def scriptReads (sp : Space) : Nat → Nat → List Transaction
  | _, 0 => []
  | i, n + 1 => .bufRead sp i :: scriptReads sp (i + 1) n

/-- `ld S, b0 ... b(k-1)` (R51). -/
def scriptLd (sp : Space) (bs : List Byte) : List Transaction := scriptBytes sp 0 bs

/-- `data b0 ... b(k-1)` (R51). -/
def scriptData (bs : List Byte) : List Transaction :=
  scriptLd .ibuf bs ++ [.regWrite 2 (BitVec.ofNat 32 bs.length)]

/-- `keys b0 ... b(k-1)` (R51). -/
def scriptKeys (bs : List Byte) : List Transaction :=
  scriptLd .kbuf bs ++ [.regWrite 3 (BitVec.ofNat 32 bs.length)]

/-- `enc` (R51). -/
def scriptEnc : List Transaction := [.regWrite 0 0x01]

/-- `dec` (R51). -/
def scriptDec : List Transaction := [.regWrite 0 0x02]

/-- `kgen` (R51). -/
def scriptKgen : List Transaction := [.regWrite 0 0x03]

/-- `out` (R51), where the read of OLEN returns `len`. -/
def scriptOut (len : Nat) : List Transaction := .regRead 4 :: scriptReads .obuf 0 len

/-- The copying lines of `loop`: `rb OBUF[i] -> b`, `wb IBUF[i], b`. -/
def scriptCopy : Nat → List Byte → List Transaction
  | _, [] => []
  | i, b :: bs => .bufRead .obuf i :: .bufWrite .ibuf i b :: scriptCopy (i + 1) bs

/-- `loop` (R51), where the reads of OBUF return the bytes `bs`. -/
def scriptLoop (bs : List Byte) : List Transaction :=
  .regRead 4 :: scriptCopy 0 bs ++ [.regWrite 2 (BitVec.ofNat 32 bs.length)]

/-- A source sequence of `length` bytes can be loaded where at most `limit` bytes are taken; a longer one has no
counterpart (R52), and the call is refused (U4 of spec/93; log entry 20). -/
def requireFits (length limit : Nat) : Except Refusal Unit :=
  if length ≤ limit then .ok () else .error (.sequenceTooLong length limit)

/-- The lines of the source call `encrypt(P, K)` before `out` (R52): `data P`, `keys K`, `enc`, `rd STATUS`. A plaintext
longer than `DCAP` or a key sequence longer than `KCAP` is refused. -/
def callEncrypt (c : Config) (P K : List Byte) : Except Refusal (List Transaction) :=
  match requireFits P.length c.dcap, requireFits K.length c.kcap with
  | .error r, _ => .error r
  | .ok _, .error r => .error r
  | .ok _, .ok _ => .ok (scriptData P ++ scriptKeys K ++ scriptEnc ++ [.regRead 1])

/-- The lines of the source call `decrypt(C, K)` before `out` (R52). A ciphertext longer than `DCAP + 3` or a key
sequence longer than `KCAP` is refused. -/
def callDecrypt (c : Config) (C K : List Byte) : Except Refusal (List Transaction) :=
  match requireFits C.length (c.dcap + 3), requireFits K.length c.kcap with
  | .error r, _ => .error r
  | .ok _, .error r => .error r
  | .ok _, .ok _ => .ok (scriptData C ++ scriptKeys K ++ scriptDec ++ [.regRead 1])

/-- The lines of the source call `generateKeys(count)` before its reads (R52). KBUF cannot hold a sequence longer than
`KCAP`, so a greater count is refused (log entry 20). -/
def callGenerateKeys (c : Config) (count : Nat) : Except Refusal (List Transaction) :=
  match requireFits count c.kcap with
  | .error r => .error r
  | .ok _ => .ok (.regWrite 3 (BitVec.ofNat 32 count) :: scriptKgen)

/-- A list of the host's transactions, one after the other (R40), up to the first that stops. -/
def performAll : List Transaction → State → Answer
  | [], s => .next s
  | x :: xs, s =>
    match perform x s with
    | .next t => performAll xs t
    | .fault f => .fault f
    | .refused r => .refused r

/-- The bytes among what the host's reads returned. -/
def replyBytes : List Reply → List Byte
  | [] => []
  | .word _ :: rs => replyBytes rs
  | .byte b :: rs => b :: replyBytes rs

/-- What a source call comes to: the byte sequence it returns and the state it leaves. -/
abbrev CallAnswer := Host.Outcome (List Byte × State) Fault Refusal

/-- Perform reading lines on `t`: the byte sequence they show, and the state after them. -/
def showBytes (reads : List Transaction) (t : State) : CallAnswer :=
  match performAll reads t with
  | .next u => .next (replyBytes (u.replies.drop t.replies.length), u)
  | .fault f => .fault f
  | .refused r => .refused r

/-- Perform the lines of a call where it is not refused, and go on from the state they leave. -/
def withLines (lines : Except Refusal (List Transaction)) (s : State) (k : State → CallAnswer) : CallAnswer :=
  match lines with
  | .error r => .refused r
  | .ok xs =>
    match performAll xs s with
    | .next t => k t
    | .fault f => .fault f
    | .refused r => .refused r

/-- The end of `encrypt` and `decrypt` (R52): `out`, whose bytes the call returns where STATUS.CODE is OK; otherwise it
returns the failure value. -/
def returnResult (t : State) : CallAnswer :=
  match showBytes (scriptOut (readReg t .olen).toNat) t with
  | .next (bs, u) => .next (if t.code = .ok then bs else failureValue t.cfg.failPolicy, u)
  | .fault f => .fault f
  | .refused r => .refused r

/-- The source call `encrypt(P, K)` made on an instance in state `s` (R52). -/
def sourceEncrypt (P K : List Byte) (s : State) : CallAnswer :=
  withLines (callEncrypt s.cfg P K) s returnResult

/-- The source call `decrypt(C, K)` made on an instance in state `s` (R52). -/
def sourceDecrypt (C K : List Byte) (s : State) : CallAnswer :=
  withLines (callDecrypt s.cfg C K) s returnResult

/-- The source call `generateKeys(count)` made on an instance in state `s` (R52): it returns what `rb KBUF[0]` to
`rb KBUF[count - 1]` show. -/
def sourceGenerateKeys (count : Nat) (s : State) : CallAnswer :=
  withLines (callGenerateKeys s.cfg count) s (showBytes (scriptReads .kbuf 0 count))

end Sys2Proof.Machine
end

