-- ==== Sys2Proof/Safety.lean ====
section
/-! DEFINITION. What claims speak of: the canonical form of a buffer, what a buffer holds, what a failed command
leaves, and the invariant of the machine. -/

namespace Sys2Proof.Machine

/-- The canonical form of a buffer's list: indices strictly rising. An unlisted cell holds no value, so no entry can
equal what an unlisted one reads as. -/
abbrev Memory.wf (m : Memory) : Prop := m.Pairwise fun x y => x.1 < y.1

/-- Every written cell lies below `n`. -/
abbrev Memory.Below (m : Memory) (n : Nat) : Prop := ∀ c ∈ m, c.1 < n

/-- The cells from 0 on hold the sequence `bs`; other cells are not spoken of. -/
abbrev Memory.Holds (m : Memory) (bs : List Byte) : Prop := ∀ i, i < bs.length → m.read i = bs[i]?

/-- The cells from 0 on hold the sequence `bs`, and every other cell is unwritten. -/
def Memory.IsExactly (m : Memory) (bs : List Byte) : Prop := ∀ i, m.read i = bs[i]?

/-- `t` is what the failure procedure with code `c` leaves of `s` (R90, R91): STATUS is 0x10 plus the code, OLEN and
OBUF hold the failure value of the policy and nothing else, and every other field is as in `s`. -/
def FailsTo (s : State) (c : ResultCode) (t : State) : Prop :=
  statusWord t = 0x10#32 + (codeNumber c).setWidth 32 ∧
  (s.cfg.failPolicy = .empty → t.olen = 0 ∧ t.obuf.IsExactly []) ∧
  (s.cfg.failPolicy = .marker → t.olen = 11 ∧ t.obuf.IsExactly MARKER) ∧
  t = { s with code := c, done := true, olen := t.olen, obuf := t.obuf }

/-- Every cell below `n` is written. -/
abbrev Memory.Written (m : Memory) (n : Nat) : Prop := ∀ i, i < n → (m.read i).isSome = true

/-- The last three of the first `n` cells of IBUF hold SIG (R60): the condition of R71 step 3. -/
abbrev SignatureAt (s : State) (n : Nat) : Prop :=
  s.ibuf.read (n - 3) = some 0x3B ∧ s.ibuf.read (n - 2) = some 0x2D ∧ s.ibuf.read (n - 1) = some 0x29

/-- The closed form of the accumulate path (R56): `K[j] XOR K[j + n] XOR K[j + 2n] XOR ...`, a sum of
`floor((m - 1 - j) / n) + 1` terms. -/
def foldedKey (n : Nat) (K : List Byte) (j : Nat) : Byte :=
  ((List.range ((K.length - 1 - j) / n + 1)).map fun t => K.getD (j + t * n) 0).foldl (· ^^^ ·) 0

/-- Does the transaction name a register or a cell that exists (R38). -/
abbrev NamesSomething (c : Config) : Transaction → Prop
  | .regRead r => r ≤ 4
  | .regWrite r _ => r ≤ 4
  | .bufRead sp i => i < capacity c sp
  | .bufWrite sp i _ => i < capacity c sp
  | .reset => True

/-- The invariant of the machine: the parameters are legal (R5), the buffers are in canonical form and within their
capacities (R18 to R20), OBUF is written exactly below OLEN (R20), and before the first command STATUS and OLEN are 0
(R16, R24). -/
structure Inv (s : State) : Prop where
  cfg_valid : s.cfg.Valid
  ibuf_wf : s.ibuf.wf
  kbuf_wf : s.kbuf.wf
  obuf_wf : s.obuf.wf
  ibuf_below : s.ibuf.Below (capacity s.cfg .ibuf)
  kbuf_below : s.kbuf.Below (capacity s.cfg .kbuf)
  obuf_below : s.obuf.Below (capacity s.cfg .obuf)
  obuf_result : ∀ i, (s.obuf.read i).isSome = true ↔ i < s.olen.toNat
  idle_status : s.done = false → s.code = .ok ∧ s.olen = 0

end Sys2Proof.Machine
end

