-- ==== Sys2Proof/Certificates/Slice0/Obligations.lean ====
section
/-! DEFINITION. The statements for the provers. Each cites the rule of spec/ it formalises. -/

open Sys2Proof Sys2Proof.Machine

/-! ## Command words -/

/-- R44, R45: the words of the table, and one reserved word of each kind, written out from the encoding. -/
def Obligations.CommandWordsDecode : Prop :=
  ∀ c : Config,
    decode c 0x00000001#32 = .ok .enc ∧
    decode c 0x00000002#32 = .ok .dec ∧
    decode c 0x00000003#32 = (if c.hasKgen then .ok .kgen else .error .kgenAbsent) ∧
    decode c 0x00000000#32 = .error .unassignedOp ∧
    decode c 0x000000FF#32 = .error .unassignedOp ∧
    decode c 0x00000101#32 = .error .zeroField ∧
    decode c 0x80000001#32 = .error .zeroField

/-- R48: the decoder reads the fields of R42 and is yet a match on the whole word; and decoding the encoding of a
command the instance has gives that command back. -/
def Obligations.DecodeIsTheMatchOnTheWholeWord : Prop :=
  (∀ (c : Config) (i : Instr), i.wf c = true → decode c (encode i) = .ok i) ∧
  (∀ (c : Config) (v : Word),
    (decode c v = .ok .enc ↔ v = 0x01) ∧
    (decode c v = .ok .dec ↔ v = 0x02) ∧
    (decode c v = .ok .kgen ↔ v = 0x03 ∧ c.hasKgen = true) ∧
    ((∃ e, decode c v = .error e) ↔ v ≠ 0x01 ∧ v ≠ 0x02 ∧ ¬ (v = 0x03 ∧ c.hasKgen = true)))

/-- R49: when the host's next transaction writes to CMD a word that decodes to a command, the step is that command,
run on the state from which the transaction has been taken. That the host's transactions stand in a list of State, and
that `State.withFetchWord` issues its write before everything else pending, so that the very next step runs it (the
second clause), is the model's choice (log entry 4). -/
def Obligations.StepRunsTheDecodedCommand : Prop :=
  (∀ (s : State) (v : Word) (i : Instr) (rest : List Transaction),
    s.pending = .regWrite 0 v :: rest → decode s.cfg v = .ok i → step s = exec i { s with pending := rest }) ∧
  (∀ (s : State) (i : Instr), i.wf s.cfg = true → step (s.withFetchWord 32 (encode i).toNat) = exec i s)

/-- R45: a reserved word written to CMD executes the failure procedure with ERR_ILLCMD and has no other effect. That
the write stands first in a list of State is the model's choice (log entry 4). -/
def Obligations.ReservedWordsFail : Prop :=
  ∀ (s : State) (v : Word) (rest : List Transaction),
    s.pending = .regWrite 0 v :: rest → v ≠ 0x01 → v ≠ 0x02 → ¬ (v = 0x03 ∧ s.cfg.hasKgen = true) →
    ∃ t, step s = .next t ∧ FailsTo { s with pending := rest } .errIllcmd t

/-! ## ENC -/

/-- R68, under the conditions of R67 and R70: ENC completes, with the closed form of its result; the frame is the
last clause. -/
def Obligations.EncClosedForm : Prop :=
  ∀ (s : State) (K : List Byte),
    s.cfg.Valid → 1 ≤ s.dlen.toNat → s.dlen.toNat ≤ s.cfg.dcap → 1 ≤ s.klen.toNat → s.klen.toNat ≤ s.cfg.kcap →
    s.ibuf.Written s.dlen.toNat → K.length = s.klen.toNat → s.kbuf.Holds K →
    ∃ EK t, ekd s.dlen.toNat K = some EK ∧ exec .enc s = .next t ∧
      statusWord t = 0x10 ∧ t.olen.toNat = s.dlen.toNat + 3 ∧
      (∀ j, j < s.dlen.toNat → ∃ p e, s.ibuf.read (s.dlen.toNat - 1 - j) = some p ∧
        EK[s.dlen.toNat - 1 - j]? = some e ∧ t.obuf.read j = some (p ^^^ e)) ∧
      t.obuf.read s.dlen.toNat = some 0x3B ∧
      t.obuf.read (s.dlen.toNat + 1) = some 0x2D ∧
      t.obuf.read (s.dlen.toNat + 2) = some 0x29 ∧
      (∀ j, s.dlen.toNat + 3 ≤ j → t.obuf.read j = none) ∧
      t = { s with code := .ok, done := true, olen := t.olen, obuf := t.obuf }

/-- R67 and R89, ENC: the failures, the first that applies, each a completion that leaves what R90 says. -/
def Obligations.EncFailsInOrder : Prop :=
  ∀ s : State,
    if s.dlen.toNat > s.cfg.dcap ∨ s.klen.toNat > s.cfg.kcap then
      ∃ t, exec .enc s = .next t ∧ FailsTo s .errLen t
    else if s.dlen.toNat = 0 then ∃ t, exec .enc s = .next t ∧ FailsTo s .errEmptyData t
    else s.klen.toNat = 0 → ∃ t, exec .enc s = .next t ∧ FailsTo s .errEmptyKeys t

/-- R21 (U1 of spec/93; log entry 6): past its checks, ENC faults at the first unwritten cell of the plaintext, and
where the plaintext is written, at the first unwritten cell of the keys. -/
def Obligations.EncStopsAtAnUnwrittenCell : Prop :=
  ∀ (s : State) (i : Nat),
    1 ≤ s.dlen.toNat → s.dlen.toNat ≤ s.cfg.dcap → 1 ≤ s.klen.toNat → s.klen.toNat ≤ s.cfg.kcap →
    (i < s.dlen.toNat → s.ibuf.read i = none → s.ibuf.Written i →
      exec .enc s = .fault (.unwrittenCell .ibuf i)) ∧
    (s.ibuf.Written s.dlen.toNat → i < s.klen.toNat → s.kbuf.read i = none → s.kbuf.Written i →
      exec .enc s = .fault (.unwrittenCell .kbuf i))

/-! ## DEC -/

/-- R72, under the conditions of R71: DEC completes, with the closed form of its result; the frame is the last
clause. -/
def Obligations.DecClosedForm : Prop :=
  ∀ (s : State) (K : List Byte),
    s.cfg.Valid → 4 ≤ s.dlen.toNat → s.dlen.toNat ≤ s.cfg.dcap + 3 → 1 ≤ s.klen.toNat →
    s.klen.toNat ≤ s.cfg.kcap → s.ibuf.Written s.dlen.toNat → SignatureAt s s.dlen.toNat →
    K.length = s.klen.toNat → s.kbuf.Holds K →
    ∃ EK t, ekd (s.dlen.toNat - 3) K = some EK ∧ exec .dec s = .next t ∧
      statusWord t = 0x10 ∧ t.olen.toNat = s.dlen.toNat - 3 ∧
      (∀ i, i < s.dlen.toNat - 3 → ∃ p e, s.ibuf.read (s.dlen.toNat - 3 - 1 - i) = some p ∧ EK[i]? = some e ∧
        t.obuf.read i = some (p ^^^ e)) ∧
      (∀ i, s.dlen.toNat - 3 ≤ i → t.obuf.read i = none) ∧
      t = { s with code := .ok, done := true, olen := t.olen, obuf := t.obuf }

/-- R71 and R89, DEC: the failures, the first that applies; the signature is tested whatever KBUF holds (R85). -/
def Obligations.DecFailsInOrder : Prop :=
  ∀ s : State,
    if s.dlen.toNat > s.cfg.dcap + 3 ∨ s.klen.toNat > s.cfg.kcap then
      ∃ t, exec .dec s = .next t ∧ FailsTo s .errLen t
    else if s.klen.toNat = 0 then ∃ t, exec .dec s = .next t ∧ FailsTo s .errEmptyKeys t
    else if s.dlen.toNat < 4 then ∃ t, exec .dec s = .next t ∧ FailsTo s .errShort t
    else s.ibuf.Written s.dlen.toNat → ¬ SignatureAt s s.dlen.toNat →
      ∃ t, exec .dec s = .next t ∧ FailsTo s .errSig t

/-- R21 (U1 of spec/93; log entries 6 and 12): past its checks, DEC faults at the first unwritten cell of the
ciphertext, and where that is written and signed, at the first unwritten cell of the keys. -/
def Obligations.DecStopsAtAnUnwrittenCell : Prop :=
  ∀ (s : State) (i : Nat),
    4 ≤ s.dlen.toNat → s.dlen.toNat ≤ s.cfg.dcap + 3 → 1 ≤ s.klen.toNat → s.klen.toNat ≤ s.cfg.kcap →
    (i < s.dlen.toNat → s.ibuf.read i = none → s.ibuf.Written i →
      exec .dec s = .fault (.unwrittenCell .ibuf i)) ∧
    (s.ibuf.Written s.dlen.toNat → SignatureAt s s.dlen.toNat → i < s.klen.toNat → s.kbuf.read i = none →
      s.kbuf.Written i → exec .dec s = .fault (.unwrittenCell .kbuf i))

/-! ## KGEN -/

/-- R76 to R78: KGEN completes, leaves `x[KLEN]` draws in the range `KEY_MIN .. 255` in KBUF in index order (a
supplied draw in the range stands as it is, log entry 8), keeps the rest of KBUF, OLEN and OBUF. -/
def Obligations.KgenDrawsTheKeys : Prop :=
  ∀ s : State, s.cfg.hasKgen = true → s.klen.toNat ≤ s.cfg.kcap →
    ∃ t, exec .kgen s = .next t ∧ statusWord t = 0x10 ∧
      (∀ k, k < s.klen.toNat → ∃ b, t.kbuf.read k = some b ∧ s.cfg.keyMin.val ≤ b.toNat ∧
        ∀ d, s.draws[k]? = some d → s.cfg.keyMin.val ≤ d.toNat → b = d) ∧
      (∀ k, s.klen.toNat ≤ k → t.kbuf.read k = s.kbuf.read k) ∧
      t.draws = s.draws.drop s.klen.toNat ∧
      t = { s with code := .ok, done := true, kbuf := t.kbuf, draws := t.draws, fresh := t.fresh }

/-- R76, R87, R45: KGEN with a count above the capacity fails with ERR_LEN; on an instance without KGEN (log entry 9)
it fails with ERR_ILLCMD. KBUF is unchanged by either. -/
def Obligations.KgenFails : Prop :=
  ∀ s : State,
    (s.cfg.hasKgen = true → s.klen.toNat > s.cfg.kcap → ∃ t, exec .kgen s = .next t ∧ FailsTo s .errLen t) ∧
    (s.cfg.hasKgen = false → ∃ t, exec .kgen s = .next t ∧ FailsTo s .errIllcmd t)

/-- R76: what KGEN may change, whatever it answers. -/
def Obligations.KgenFrame : Prop :=
  ∀ s t : State, exec .kgen s = .next t →
    (∀ k, s.klen.toNat ≤ k → t.kbuf.read k = s.kbuf.read k) ∧
    (t.code = .ok → t.olen = s.olen ∧ t.obuf = s.obuf) ∧
    (t.code ≠ .ok → t.kbuf = s.kbuf ∧ t.draws = s.draws ∧ t.fresh = s.fresh) ∧
    t = { s with
      code := t.code, done := true, olen := t.olen, obuf := t.obuf, kbuf := t.kbuf, draws := t.draws,
      fresh := t.fresh }

/-- R80: the keys KGEN has made are the key sequence of a following ENC with the same KLEN: the ENC succeeds, its result
is the ciphertext of the plaintext under exactly the sequence KBUF holds after KGEN, and KBUF keeps it. -/
def Obligations.EncRunsOnGeneratedKeys : Prop :=
  ∀ (s t : State) (P : List Byte), exec .kgen s = .next t → t.code = .ok → 1 ≤ s.klen.toNat →
    P.length = s.dlen.toNat → 1 ≤ P.length → P.length ≤ s.cfg.dcap → s.ibuf.Holds P →
    ∃ K C u, K.length = s.klen.toNat ∧ t.kbuf.Holds K ∧ encrypt P K = some C ∧ exec .enc t = .next u ∧
      u.code = .ok ∧ statusWord u = 0x10 ∧ u.obuf.IsExactly C ∧ u.kbuf = t.kbuf

/-! ## All commands -/

/-- R67, R71, R76: the result codes each command can end with. -/
def Obligations.CodesOfEachCommand : Prop :=
  ∀ s t : State,
    (exec .enc s = .next t → t.code ∈ [.ok, .errLen, .errEmptyData, .errEmptyKeys]) ∧
    (exec .dec s = .next t → t.code ∈ [.ok, .errLen, .errEmptyKeys, .errShort, .errSig]) ∧
    (s.cfg.hasKgen = true → exec .kgen s = .next t → t.code ∈ [.ok, .errLen])

/-- R90 (with R91 for the failure value and R88 for what is recorded): a command that completes with a code other than
OK has done exactly what the failure procedure does. -/
def Obligations.EveryFailureIsTheFailureProcedure : Prop :=
  ∀ (i : Instr) (s t : State), exec i s = .next t → t.code ≠ .ok → FailsTo s t.code t

/-- R29: ENC and DEC write STATUS, OLEN and OBUF and nothing else, whatever they answer, so that a second issue of
the same command leaves the same result. -/
def Obligations.EncAndDecPreserveInputs : Prop :=
  ∀ (i : Instr) (s t : State), i = .enc ∨ i = .dec → exec i s = .next t →
    t = { s with code := t.code, done := true, olen := t.olen, obuf := t.obuf } ∧ exec i t = .next t

/-- R21, R111: no command is refused, and one stops only at an unwritten cell of an operand, KGEN never. -/
def Obligations.CommandsStopOnlyAtUnwrittenCells : Prop :=
  ∀ (i : Instr) (s : State),
    (∃ t, exec i s = .next t) ∨
    (i ≠ .kgen ∧ ∃ k, exec i s = .fault (.unwrittenCell .ibuf k) ∧ k < s.dlen.toNat ∧ s.ibuf.read k = none) ∨
    (i ≠ .kgen ∧ ∃ k, exec i s = .fault (.unwrittenCell .kbuf k) ∧ k < s.klen.toNat ∧ s.kbuf.read k = none)

/-- R23: the result of ENC and DEC depends only on the parameters, the two lengths and the two sequences; that of
KGEN on the parameters, KLEN and the draws. -/
def Obligations.ResultsDependOnOperandsOnly : Prop :=
  ∀ s₁ s₂ t₁ : State, s₁.cfg = s₂.cfg → s₁.klen = s₂.klen →
    (∀ i, i = Instr.enc ∨ i = Instr.dec → s₁.dlen = s₂.dlen →
      (∀ k, k < s₁.dlen.toNat → s₁.ibuf.read k = s₂.ibuf.read k) →
      (∀ k, k < s₁.klen.toNat → s₁.kbuf.read k = s₂.kbuf.read k) → exec i s₁ = .next t₁ →
      ∃ t₂, exec i s₂ = .next t₂ ∧ statusWord t₁ = statusWord t₂ ∧ t₁.olen = t₂.olen ∧ t₁.obuf = t₂.obuf) ∧
    (s₁.draws = s₂.draws → s₁.fresh = s₂.fresh → exec .kgen s₁ = .next t₁ →
      ∃ t₂, exec .kgen s₂ = .next t₂ ∧ statusWord t₁ = statusWord t₂ ∧
        (t₁.code = .ok → ∀ k, k < s₁.klen.toNat → t₁.kbuf.read k = t₂.kbuf.read k))

/-- R15, R91: under the empty-sequence policy an empty result of ENC or DEC means failure and nothing else. -/
def Obligations.EmptyResultMeansFailure : Prop :=
  ∀ (i : Instr) (s t : State), i = .enc ∨ i = .dec → s.cfg.Valid → s.cfg.failPolicy = .empty →
    exec i s = .next t → (t.olen = 0 ↔ t.code ≠ .ok)

/-- R91: under the marker policy the result sequence of ENC alone tells failure from success. -/
def Obligations.MarkerIsNoCiphertext : Prop :=
  ∀ s t : State, s.cfg.failPolicy = .marker → exec .enc s = .next t →
    (t.obuf.IsExactly MARKER ↔ t.code ≠ .ok)

/-! ## The datapath units -/

/-- R56: the closed form of EKD on both paths, its boundary, and the case between one and two data lengths of keys. -/
def Obligations.EffectiveKeyClosedForm : Prop :=
  ∀ (n : Nat) (K : List Byte), 0 < n → 0 < K.length →
    ∃ EK, ekd n K = some EK ∧ EK.length = n ∧
      (K.length = n → EK = K) ∧
      ∀ j, j < n →
        (n ≤ K.length →
          (∀ t, t < (K.length - 1 - j) / n + 1 ↔ j + t * n < K.length) ∧ EK[j]? = some (foldedKey n K j)) ∧
        (K.length < n → EK[j]? = K[j % K.length]?) ∧
        (n < K.length → K.length < 2 * n →
          EK[j]? = if j < K.length - n then some (K.getD j 0 ^^^ K.getD (j + n) 0) else K[j]?)

/-- R60: the signature check looks at the last three bytes and at nothing else. -/
def Obligations.SignatureCheckIsTheLastThreeBytes : Prop :=
  ∀ C : List Byte, 4 ≤ C.length →
    (sigtValidate C = true ↔
      C[C.length - 3]? = some 0x3B ∧ C[C.length - 2]? = some 0x2D ∧ C[C.length - 1]? = some 0x29)

/-- R64: the laws of the units. -/
def Obligations.LawsOfTheUnits : Prop :=
  (∀ a b c : Byte, a ^^^ b = b ^^^ a ∧ (a ^^^ b) ^^^ c = a ^^^ (b ^^^ c) ∧ a ^^^ 0 = a ∧ a ^^^ a = 0 ∧
    (a ^^^ b) ^^^ b = a) ∧
  (∀ D EK : List Byte, D.length = EK.length → xmask (xmask D EK) EK = D) ∧
  (∀ M : List Byte, brev (brev M) = M ∧ (brev M).length = M.length) ∧
  (∀ D E : List Byte, D.length = E.length → brev (xmask D E) = xmask (brev D) (brev E)) ∧
  (∀ R : List Byte, 1 ≤ R.length →
    sigtValidate (sigtAppend R) = true ∧ (sigtAppend R).take R.length = R) ∧
  (∀ (n : Nat) (K EK : List Byte), ekd n K = some EK → EK.length = n)

/-- R65: the round trip, and its converse on every ciphertext that validates. -/
def Obligations.EncryptAndDecryptAreInverse : Prop :=
  (∀ P K : List Byte, 1 ≤ P.length → 1 ≤ K.length →
    ∃ C, encrypt P K = some C ∧ sigtValidate C = true ∧ decrypt C K = some P) ∧
  (∀ C K : List Byte, 4 ≤ C.length → sigtValidate C = true → 1 ≤ K.length →
    ∃ P, decrypt C K = some P ∧ encrypt P K = some C)

/-- R66: a key byte 00 added to a key sequence at least as long as the data changes no ciphertext. -/
def Obligations.TrailingZeroKeyIsInvisible : Prop :=
  ∀ P K : List Byte, 1 ≤ P.length → P.length ≤ K.length → encrypt P (K ++ [0]) = encrypt P K

/-! ## Commands and host together -/

/-- R75: where ENC has succeeded and the host has copied its result to IBUF and its length to DLEN, DEC gives the
plaintext back. -/
def Obligations.DecInvertsEnc : Prop :=
  ∀ (s t u : State) (P : List Byte),
    s.cfg.Valid → P.length = s.dlen.toNat → s.ibuf.Holds P → exec .enc s = .next t → t.code = .ok →
    u.cfg = t.cfg → u.klen = t.klen → u.kbuf = t.kbuf → u.dlen = t.olen →
    (∀ j, j < t.olen.toNat → u.ibuf.read j = t.obuf.read j) →
    ∃ v, exec .dec u = .next v ∧ statusWord v = 0x10 ∧ v.olen.toNat = P.length ∧ v.obuf.IsExactly P

/-- R52: the host lines `data P`, `keys K`, `enc` leave the ciphertext of `P` under `K`, from every state. That they wait
in a list of State is the model's choice (log entry 4). -/
def Obligations.SourceCallEncrypts : Prop :=
  ∀ (s : State) (P K : List Byte) (rest : List Transaction),
    s.cfg.Valid → 1 ≤ P.length → P.length ≤ s.cfg.dcap → 1 ≤ K.length → K.length ≤ s.cfg.kcap →
    s.pending = scriptData P ++ scriptKeys K ++ scriptEnc ++ rest →
    ∃ C t, encrypt P K = some C ∧ core.run (P.length + 1 + (K.length + 1) + 1) s = .next t ∧
      statusWord t = 0x10 ∧ t.olen.toNat = C.length ∧ t.obuf.IsExactly C ∧ t.pending = rest

/-- R33: the host's byte transactions. A write reaches the one cell it names, a write to OBUF is ignored, a read
returns the cell's value or, for an unwritten cell, an unspecified byte (log entry 7), and changes no state of the
block. The list the transaction is taken from, the list of what reads returned, and the counter of free values are the
model's own (log entries 4, 5 and 7). -/
def Obligations.HostByteTransactions : Prop :=
  ∀ (s : State) (sp : Space) (i : Nat) (b : Byte) (rest : List Transaction), i < capacity s.cfg sp →
    (s.pending = .bufWrite sp i b :: rest → sp ≠ .obuf →
      ∃ t, step s = .next t ∧ (buffer t sp).read i = some b ∧
        (∀ sp' j, sp' ≠ sp ∨ j ≠ i → (buffer t sp').read j = (buffer s sp').read j) ∧
        t = { s with pending := rest, ibuf := t.ibuf, kbuf := t.kbuf }) ∧
    (s.pending = .bufWrite .obuf i b :: rest → sp = .obuf → step s = .next { s with pending := rest }) ∧
    (s.pending = .bufRead sp i :: rest →
      ∃ x f, step s = .next { s with pending := rest, replies := s.replies ++ [.byte x], fresh := f } ∧
        ∀ c, (buffer s sp).read i = some c → x = c)

/-- R36: a host write of a byte, of DLEN or of KLEN done twice is the same write done once. -/
def Obligations.HostWritesAreIdempotent : Prop :=
  ∀ (s t : State) (x : Transaction),
    (∃ sp i b, x = .bufWrite sp i b) ∨ (∃ v, x = .regWrite 2 v ∨ x = .regWrite 3 v) →
    perform x s = .next t → perform x t = .next t

/-- R34: the host's register transactions; a write of CMD is the execution of a command (R49). The list the transaction
is taken from and the list of what reads returned are the model's own (log entries 4 and 5). -/
def Obligations.HostRegisterTransactions : Prop :=
  ∀ (s : State) (v : Word) (rest : List Transaction),
    (s.pending = .regWrite 2 v :: rest → step s = .next { s with pending := rest, dlen := v }) ∧
    (s.pending = .regWrite 3 v :: rest → step s = .next { s with pending := rest, klen := v }) ∧
    (s.pending = .regWrite 0 v :: rest → step s = commandWrite v { s with pending := rest }) ∧
    (∀ r, r = 1 ∨ r = 4 → s.pending = .regWrite r v :: rest → step s = .next { s with pending := rest }) ∧
    (∀ r w, (r, w) ∈ [(0, 0), (1, statusWord s), (2, s.dlen), (3, s.klen), (4, s.olen)] →
      s.pending = .regRead r :: rest →
      step s = .next { s with pending := rest, replies := s.replies ++ [.word w] })

/-- R38 (U5 of spec/93; log entry 10): a step is refused exactly when the transaction names nothing in the block. -/
def Obligations.OnlyNamelessTransactionsAreRefused : Prop :=
  ∀ (s : State) (x : Transaction) (rest : List Transaction), s.pending = x :: rest →
    ((∃ r, step s = .refused r) ↔ ¬ NamesSomething s.cfg x)

/-- R97: the reset event, and nothing but it: the block is left as after reset. That the model's own fields (the rest of
the pending list, `replies`, `draws`, `fresh`) stay is the model's choice (log entry 13). -/
def Obligations.ResetTransaction : Prop :=
  ∀ (s : State) (rest : List Transaction), s.pending = .reset :: rest →
    ∃ t, step s = .next t ∧ statusWord t = 0 ∧ t.dlen = 0 ∧ t.klen = 0 ∧ t.olen = 0 ∧
      (∀ sp i, (buffer t sp).read i = none) ∧
      t = { State.resetOf s.cfg with pending := rest, replies := s.replies, draws := s.draws, fresh := s.fresh }

/-- R24, R25: what every instance holds after reset. -/
def Obligations.RegistersAndBuffersAfterReset : Prop :=
  ∀ (c : Config) (r : Reg) (sp : Space) (i : Nat),
    readReg (State.resetOf c) r = 0 ∧ (State.resetOf c).code = .ok ∧ (State.resetOf c).done = false ∧
    (buffer (State.resetOf c) sp).read i = none

/-- R100: commands issued straight after reset. -/
def Obligations.CommandsStraightAfterReset : Prop :=
  ∀ c : Config,
    (∃ t, exec .enc (State.resetOf c) = .next t ∧ statusWord t = 0x11) ∧
    (∃ t, exec .dec (State.resetOf c) = .next t ∧ statusWord t = 0x12) ∧
    (c.hasKgen = true → ∃ t, exec .kgen (State.resetOf c) = .next t ∧ statusWord t = 0x10 ∧ t.kbuf = [])

/-- R16: the fields of STATUS as a host reads it. -/
def Obligations.FieldsOfStatus : Prop :=
  ∀ s : State,
    (statusWord s).extractLsb' 0 4 = codeNumber s.code ∧
    (statusWord s).getLsbD 4 = s.done ∧
    (∀ k, 5 ≤ k → (statusWord s).getLsbD k = false) ∧
    (codeNumber s.code).toNat ≤ 6

/-! ## The whole machine -/

/-- R40 (a), R99, R112: a step takes exactly the oldest transaction; with none pending the state stays. -/
def Obligations.TransactionsTakeEffectInOrder : Prop :=
  (∀ s t : State, step s = .next t → t.pending = s.pending.tail) ∧
  (∀ s : State, s.pending = [] → step s = .next s)

/-- R49 (last sentence), R36: only a write of CMD or reset changes STATUS, OLEN and OBUF. -/
def Obligations.OnlyCommandsChangeTheResult : Prop :=
  ∀ s t : State, step s = .next t →
    (∀ v rest, s.pending ≠ .regWrite 0 v :: rest) → (∀ rest, s.pending ≠ .reset :: rest) →
    statusWord t = statusWord s ∧ t.olen = s.olen ∧ t.obuf = s.obuf

/-- R98, R16: no step but reset returns DONE to 0, and every command sets it. -/
def Obligations.OnlyResetClearsDone : Prop :=
  ∀ s t : State, step s = .next t → (∀ rest, s.pending ≠ .reset :: rest) →
    (s.done = true → t.done = true) ∧ (∀ v rest, s.pending = .regWrite 0 v :: rest → t.done = true)

/-- R5, R91: the parameters of an instance are fixed for its life. -/
def Obligations.ParametersNeverChange : Prop :=
  ∀ s t : State, step s = .next t → t.cfg = s.cfg

/-- R24, R25: the machine is in its invariant after reset, for every legal choice of parameters and for the one
`State.reset` stands for (log entry 2). -/
def Obligations.InvariantAfterReset : Prop :=
  (∀ c : Config, c.Valid → Inv (State.resetOf c)) ∧ Inv State.reset

/-- R18 to R21: every step keeps the invariant: buffers in canonical form and within capacity, OBUF written exactly
below OLEN, legal parameters, STATUS and OLEN 0 until the first command. -/
def Obligations.EveryStepKeepsTheInvariant : Prop :=
  ∀ s t : State, Inv s → step s = .next t → Inv t

/-! ## The source's calls -/

/-- R52, U4 of spec/93: what `encrypt(P, K)` comes to, from every state. Sequences beyond `DCAP` or `KCAP` are refused
(log entry 20); otherwise the lines complete, and the call returns the ciphertext, or the failure value where `P` or `K`
is empty. The host has then read STATUS, OLEN and the result, in that order (log entry 5). -/
def Obligations.SourceEncryptReturns : Prop :=
  ∀ (s : State) (P K : List Byte), s.cfg.Valid →
    if P.length > s.cfg.dcap then sourceEncrypt P K s = .refused (.sequenceTooLong P.length s.cfg.dcap)
    else if K.length > s.cfg.kcap then sourceEncrypt P K s = .refused (.sequenceTooLong K.length s.cfg.kcap)
    else ∃ bs t, sourceEncrypt P K s = .next (bs, t) ∧
      (1 ≤ P.length → 1 ≤ K.length → t.code = .ok ∧ encrypt P K = some bs) ∧
      (P.length = 0 → t.code = .errEmptyData ∧ bs = failureValue s.cfg.failPolicy) ∧
      (1 ≤ P.length → K.length = 0 → t.code = .errEmptyKeys ∧ bs = failureValue s.cfg.failPolicy) ∧
      t.ibuf.Holds P ∧ t.kbuf.Holds K ∧ t.obuf.IsExactly bs ∧
      t.replies = s.replies ++ .word (statusWord t) :: .word t.olen :: bs.map .byte

/-- R52, U4 of spec/93: what `decrypt(C, K)` comes to, from every state. Sequences beyond `DCAP + 3` or `KCAP` are
refused (log entry 20); otherwise the lines complete, and the call returns the plaintext, or the failure value where `K`
is empty, `C` is shorter than 4 or `C` is not signed, in that order. The host has then read STATUS, OLEN and the result
(log entry 5). -/
def Obligations.SourceDecryptReturns : Prop :=
  ∀ (s : State) (C K : List Byte), s.cfg.Valid →
    if C.length > s.cfg.dcap + 3 then sourceDecrypt C K s = .refused (.sequenceTooLong C.length (s.cfg.dcap + 3))
    else if K.length > s.cfg.kcap then sourceDecrypt C K s = .refused (.sequenceTooLong K.length s.cfg.kcap)
    else ∃ bs t, sourceDecrypt C K s = .next (bs, t) ∧
      (1 ≤ K.length → 4 ≤ C.length → sigtValidate C = true → t.code = .ok ∧ decrypt C K = some bs) ∧
      (K.length = 0 → t.code = .errEmptyKeys ∧ bs = failureValue s.cfg.failPolicy) ∧
      (1 ≤ K.length → C.length < 4 → t.code = .errShort ∧ bs = failureValue s.cfg.failPolicy) ∧
      (1 ≤ K.length → 4 ≤ C.length → sigtValidate C = false →
        t.code = .errSig ∧ bs = failureValue s.cfg.failPolicy) ∧
      t.ibuf.Holds C ∧ t.kbuf.Holds K ∧ t.obuf.IsExactly bs ∧
      t.replies = s.replies ++ .word (statusWord t) :: .word t.olen :: bs.map .byte

/-- R52, R76 to R78: on an instance with KGEN, `generateKeys(count)` returns `count` bytes in `KEY_MIN .. 255`, those KBUF
then holds, a supplied draw in the range as it stands (log entry 8); a count KBUF cannot hold is refused (log
entry 20). -/
def Obligations.SourceGenerateKeysReturns : Prop :=
  ∀ (s : State) (count : Nat), s.cfg.Valid → s.cfg.hasKgen = true →
    if count > s.cfg.kcap then sourceGenerateKeys count s = .refused (.sequenceTooLong count s.cfg.kcap)
    else ∃ K t, sourceGenerateKeys count s = .next (K, t) ∧ K.length = count ∧
      statusWord t = 0x10 ∧ t.klen.toNat = count ∧ t.kbuf.Holds K ∧ t.olen = s.olen ∧ t.obuf = s.obuf ∧
      ∀ k, k < count → ∃ b, K[k]? = some b ∧ s.cfg.keyMin.val ≤ b.toNat ∧
        ∀ d, s.draws[k]? = some d → s.cfg.keyMin.val ≤ d.toNat → b = d

/-- R65 on the block: `decrypt(encrypt(P, K), K)` returns `P`, for calls within capacity made on two instances of one
size, whatever their states. -/
def Obligations.SourceCallsRoundTrip : Prop :=
  ∀ (s s' : State) (P K : List Byte), s.cfg.Valid → s'.cfg = s.cfg →
    1 ≤ P.length → P.length ≤ s.cfg.dcap → 1 ≤ K.length → K.length ≤ s.cfg.kcap →
    ∃ C t t', sourceEncrypt P K s = .next (C, t) ∧ sourceDecrypt C K s' = .next (P, t')

/-- R40, R50, R99: performing lines one after the other is what the machine's steps do with these lines pending, each
step taking one of them. That they wait in a list of State is the model's choice (log entry 4). -/
def Obligations.LinesRunAsSteps : Prop :=
  ∀ (lines : List Transaction) (s t : State), performAll lines s = .next t →
    core.run lines.length { s with pending := lines ++ s.pending } = .next t
end

