-- ==== Sys2Proof/Laws/Memory.lean ====
section
/-! SUPPORT. The laws of the buffer operations: a read after a write, the canonical form, the capacity bound, and
what a sequence read or written amounts to. -/

namespace Sys2Proof.Machine

@[simp] theorem Memory.read_nil (i : Nat) : Memory.read [] i = none := rfl

@[simp] theorem Memory.read_write_same (m : Memory) (i : Nat) (b : Byte) :
    (m.write i b).read i = some b := by
  induction m with
  | nil => simp [Memory.write, Memory.read]
  | cons c m ih =>
    obtain ⟨a, x⟩ := c
    unfold Memory.write
    split
    · simp [Memory.read]
    · split
      · simp [Memory.read]
      · rename_i h
        simp [Memory.read, Ne.symm h, ih]

theorem Memory.read_write_other (m : Memory) {i j : Nat} (b : Byte) (h : j ≠ i) :
    (m.write i b).read j = m.read j := by
  induction m with
  | nil => simp [Memory.write, Memory.read, Ne.symm h]
  | cons c m ih =>
    obtain ⟨a, x⟩ := c
    unfold Memory.write
    split
    · simp [Memory.read, Ne.symm h]
    · split
      · rename_i ha
        subst ha
        simp [Memory.read, Ne.symm h]
      · simp [Memory.read, ih]

theorem Memory.read_write (m : Memory) (i j : Nat) (b : Byte) :
    (m.write i b).read j = if j = i then some b else m.read j := by
  split
  · rename_i h
    rw [h, Memory.read_write_same]
  · rename_i h
    exact Memory.read_write_other m b h

/-- Which entries a write can leave: the new one and old ones. -/
theorem Memory.mem_write {m : Memory} {i : Nat} {b : Byte} {c : Host.Cell}
    (h : c ∈ m.write i b) : c = (i, b) ∨ c ∈ m := by
  induction m with
  | nil => exact .inl (by simpa [Memory.write] using h)
  | cons d m ih =>
    obtain ⟨a, x⟩ := d
    unfold Memory.write at h
    split at h
    · simpa using h
    · split at h
      · rcases List.mem_cons.1 h with h | h
        · exact .inl h
        · exact .inr (List.mem_cons_of_mem _ h)
      · rcases List.mem_cons.1 h with h | h
        · exact .inr (by simp [h])
        · exact (ih h).imp id (List.mem_cons_of_mem _)

theorem Memory.write_wf {m : Memory} (i : Nat) (b : Byte) (h : m.wf) : (m.write i b).wf := by
  induction m with
  | nil => simp [Memory.write, Memory.wf]
  | cons d m ih =>
    obtain ⟨a, x⟩ := d
    obtain ⟨ha, hm⟩ := List.pairwise_cons.1 h
    unfold Memory.write
    split
    · rename_i hi
      refine List.pairwise_cons.2 ⟨fun c hc => ?_, h⟩
      rcases List.mem_cons.1 hc with rfl | hc
      · exact hi
      · exact Nat.lt_trans hi (ha c hc)
    · split
      · rename_i hi
        subst hi
        exact List.pairwise_cons.2 ⟨ha, hm⟩
      · refine List.pairwise_cons.2 ⟨fun c hc => ?_, ih hm⟩
        rcases Memory.mem_write hc with rfl | hc
        · show a < i
          omega
        · exact ha c hc

theorem Memory.write_below {m : Memory} {i n : Nat} (b : Byte) (hi : i < n) (h : m.Below n) :
    (m.write i b).Below n := by
  intro c hc
  rcases Memory.mem_write hc with rfl | hc
  · exact hi
  · exact h c hc

/-- Writing the same byte twice is writing it once (R36). -/
theorem Memory.write_write (m : Memory) (i : Nat) (b : Byte) :
    (m.write i b).write i b = m.write i b := by
  induction m with
  | nil => simp [Memory.write]
  | cons d m ih =>
    obtain ⟨a, x⟩ := d
    by_cases h : i < a
    · simp [Memory.write, h]
    · by_cases h' : i = a
      · subst h'
        simp [Memory.write]
      · simp [Memory.write, h, h', ih]

theorem Memory.writeSeq_wf {m : Memory} (i : Nat) (bs : List Byte) (h : m.wf) : (m.writeSeq i bs).wf := by
  induction bs generalizing m i with
  | nil => exact h
  | cons b bs ih => exact ih _ (Memory.write_wf i b h)

theorem Memory.writeSeq_below {m : Memory} {i n : Nat} (bs : List Byte) (hi : i + bs.length ≤ n)
    (h : m.Below n) : (m.writeSeq i bs).Below n := by
  induction bs generalizing m i with
  | nil => exact h
  | cons b bs ih =>
    simp only [List.length_cons] at hi
    exact ih (by omega) (Memory.write_below b (by omega) h)

/-- A sequence written from `i` on is read there; other cells keep what they held. -/
theorem Memory.read_writeSeq (m : Memory) (i : Nat) (bs : List Byte) (j : Nat) :
    (m.writeSeq i bs).read j =
      if i ≤ j ∧ j < i + bs.length then bs[j - i]? else m.read j := by
  induction bs generalizing m i with
  | nil =>
    have : ¬ (i ≤ j ∧ j < i + 0) := by omega
    simp only [Memory.writeSeq, List.length_nil, if_neg this]
  | cons b bs ih =>
    rw [Memory.writeSeq, ih, Memory.read_write, List.length_cons]
    rcases Nat.lt_trichotomy j i with h | h | h
    · have h₁ : ¬ (i + 1 ≤ j ∧ j < i + 1 + bs.length) := by omega
      have h₂ : ¬ (i ≤ j ∧ j < i + (bs.length + 1)) := by omega
      simp only [h₁, h₂, if_false, Nat.ne_of_lt h]
    · subst h
      simp
    · by_cases hj : j < i + (bs.length + 1)
      · have h₁ : i + 1 ≤ j ∧ j < i + 1 + bs.length := by omega
        have h₂ : i ≤ j ∧ j < i + (bs.length + 1) := by omega
        rw [if_pos h₁, if_pos h₂, show j - i = (j - (i + 1)) + 1 by omega, List.getElem?_cons_succ]
      · have h₁ : ¬ (i + 1 ≤ j ∧ j < i + 1 + bs.length) := by omega
        have h₂ : ¬ (i ≤ j ∧ j < i + (bs.length + 1)) := by omega
        rw [if_neg h₁, if_neg h₂, if_neg (by omega)]

/-- Every entry of a sequence laid from `i` on lies in `i .. i + length`. -/
theorem Memory.mem_ofSeq {bs : List Byte} {i : Nat} {c : Host.Cell} (h : c ∈ Memory.ofSeq i bs) :
    i ≤ c.1 ∧ c.1 < i + bs.length := by
  induction bs generalizing i with
  | nil => simp [Memory.ofSeq] at h
  | cons b bs ih =>
    rw [List.length_cons]
    rcases List.mem_cons.1 h with rfl | h
    · exact ⟨Nat.le_refl i, by show i < _; omega⟩
    · have := ih h
      omega

theorem Memory.ofSeq_wf (i : Nat) (bs : List Byte) : (Memory.ofSeq i bs).wf := by
  induction bs generalizing i with
  | nil => exact List.Pairwise.nil
  | cons b bs ih => exact List.pairwise_cons.2 ⟨fun c hc => (Memory.mem_ofSeq hc).1, ih (i + 1)⟩

theorem Memory.ofSeq_below {i n : Nat} (bs : List Byte) (h : i + bs.length ≤ n) :
    (Memory.ofSeq i bs).Below n := fun _ hc =>
  Nat.lt_of_lt_of_le (Memory.mem_ofSeq hc).2 h

theorem Memory.read_ofSeq_of_lt (i : Nat) (bs : List Byte) {j : Nat} (h : j < i) :
    (Memory.ofSeq i bs).read j = none := by
  induction bs generalizing i with
  | nil => rfl
  | cons b bs ih => simp [Memory.ofSeq, Memory.read, Nat.ne_of_gt h, ih (i + 1) (by omega)]

theorem Memory.read_ofSeq_add (i : Nat) (bs : List Byte) (j : Nat) :
    (Memory.ofSeq i bs).read (i + j) = bs[j]? := by
  induction bs generalizing i j with
  | nil => simp [Memory.ofSeq]
  | cons b bs ih =>
    cases j with
    | zero => simp [Memory.ofSeq, Memory.read]
    | succ j =>
      have := ih (i + 1) j
      rw [show i + (j + 1) = i + 1 + j by omega]
      simp only [Memory.ofSeq, Memory.read, List.getElem?_cons_succ, this]
      rw [if_neg (by omega)]

/-- A buffer laid from 0 on holds exactly its sequence. -/
@[simp] theorem Memory.read_ofSeq_zero (bs : List Byte) (j : Nat) :
    (Memory.ofSeq 0 bs).read j = bs[j]? := by
  simpa using Memory.read_ofSeq_add 0 bs j

/-- Reading a sequence succeeds with `bs` exactly when the cells hold it. -/
theorem Memory.readSeq_ok_iff (m : Memory) (i n : Nat) (bs : List Byte) :
    m.readSeq i n = .ok bs ↔ bs.length = n ∧ ∀ j, j < n → m.read (i + j) = bs[j]? := by
  induction n generalizing i bs with
  | zero => cases bs <;> simp [Memory.readSeq]
  | succ n ih =>
    rw [Memory.readSeq]
    cases hr : m.read i with
    | none =>
      simp only [reduceCtorEq, false_iff, not_and]
      intro hl h
      have := h 0 (by omega)
      cases bs with
      | nil => simp at hl
      | cons b bs => simp [hr] at this
    | some b =>
      cases bs with
      | nil =>
        simp only [List.length_nil, Nat.right_eq_add, Nat.add_eq_zero_iff, Nat.one_ne_zero, and_false,
          false_and, iff_false]
        cases m.readSeq (i + 1) n <;> simp
      | cons x bs =>
        have key : (m.readSeq (i + 1) n = .ok bs ∧ b = x) ↔
            (x :: bs).length = n + 1 ∧ ∀ j, j < n + 1 → m.read (i + j) = (x :: bs)[j]? := by
          rw [ih]
          constructor
          · rintro ⟨⟨hl, h⟩, rfl⟩
            refine ⟨by simp [hl], fun j hj => ?_⟩
            cases j with
            | zero => simpa using hr
            | succ j =>
              have := h j (by omega)
              rw [show i + (j + 1) = i + 1 + j by omega]
              simpa using this
          · rintro ⟨hl, h⟩
            refine ⟨⟨by simpa using hl, fun j hj => ?_⟩, ?_⟩
            · have := h (j + 1) (by omega)
              rw [show i + (j + 1) = i + 1 + j by omega] at this
              simpa using this
            · simpa [hr] using h 0 (by omega)
        rw [← key]
        cases m.readSeq (i + 1) n with
        | ok ys => simp [and_comm]
        | error k => simp

/-- Reading a sequence fails with `k` exactly when `k` is its first unwritten cell. -/
theorem Memory.readSeq_error_iff (m : Memory) (i n k : Nat) :
    m.readSeq i n = .error k ↔
      i ≤ k ∧ k < i + n ∧ m.read k = none ∧ ∀ j, i ≤ j → j < k → (m.read j).isSome = true := by
  induction n generalizing i with
  | zero => simp [Memory.readSeq]; omega
  | succ n ih =>
    rw [Memory.readSeq]
    cases hr : m.read i with
    | none =>
      simp only [Except.error.injEq]
      constructor
      · rintro rfl
        exact ⟨Nat.le_refl _, by omega, hr, fun j h₁ h₂ => by omega⟩
      · rintro ⟨h₁, -, -, h⟩
        rcases Nat.lt_or_ge i k with hlt | hge
        · have := h i (Nat.le_refl _) hlt
          simp [hr] at this
        · omega
    | some b =>
      have key : m.readSeq (i + 1) n = .error k ↔
          i ≤ k ∧ k < i + (n + 1) ∧ m.read k = none ∧ ∀ j, i ≤ j → j < k → (m.read j).isSome = true := by
        rw [ih]
        constructor
        · rintro ⟨h₁, h₂, h₃, h₄⟩
          refine ⟨by omega, by omega, h₃, fun j hj hk => ?_⟩
          rcases Nat.eq_or_lt_of_le hj with rfl | hlt
          · simp [hr]
          · exact h₄ j hlt hk
        · rintro ⟨h₁, h₂, h₃, h₄⟩
          have : i ≠ k := by
            rintro rfl
            simp [hr] at h₃
          exact ⟨by omega, by omega, h₃, fun j hj hk => h₄ j (by omega) hk⟩
      rw [← key]
      cases m.readSeq (i + 1) n <;> simp

/-- Reading depends only on the cells read (R107). -/
theorem Memory.readSeq_congr {m m' : Memory} {i n : Nat}
    (h : ∀ j, i ≤ j → j < i + n → m.read j = m'.read j) : m.readSeq i n = m'.readSeq i n := by
  induction n generalizing i with
  | zero => rfl
  | succ n ih =>
    rw [Memory.readSeq, Memory.readSeq, h i (Nat.le_refl _) (by omega),
      ih fun j h₁ h₂ => h j (by omega) (by omega)]

end Sys2Proof.Machine
end

