-- ==== Sys2Proof/Laws/State.lean ====
section
/-! SUPPORT. What each update of the state does to each field, true by unfolding, so that no proof unfolds a record
update. -/

namespace Sys2Proof.Machine

/-! Every command writes CODE and DONE and nothing else by it (R17). -/

@[simp] theorem setStatus_cfg (c : ResultCode) (s : State) :
    (setStatus c s).cfg = s.cfg := rfl
@[simp] theorem setStatus_code (c : ResultCode) (s : State) :
    (setStatus c s).code = c := rfl
@[simp] theorem setStatus_done (c : ResultCode) (s : State) :
    (setStatus c s).done = true := rfl
@[simp] theorem setStatus_dlen (c : ResultCode) (s : State) :
    (setStatus c s).dlen = s.dlen := rfl
@[simp] theorem setStatus_klen (c : ResultCode) (s : State) :
    (setStatus c s).klen = s.klen := rfl
@[simp] theorem setStatus_olen (c : ResultCode) (s : State) :
    (setStatus c s).olen = s.olen := rfl
@[simp] theorem setStatus_ibuf (c : ResultCode) (s : State) :
    (setStatus c s).ibuf = s.ibuf := rfl
@[simp] theorem setStatus_kbuf (c : ResultCode) (s : State) :
    (setStatus c s).kbuf = s.kbuf := rfl
@[simp] theorem setStatus_obuf (c : ResultCode) (s : State) :
    (setStatus c s).obuf = s.obuf := rfl
@[simp] theorem setStatus_pending (c : ResultCode) (s : State) :
    (setStatus c s).pending = s.pending := rfl
@[simp] theorem setStatus_replies (c : ResultCode) (s : State) :
    (setStatus c s).replies = s.replies := rfl
@[simp] theorem setStatus_draws (c : ResultCode) (s : State) :
    (setStatus c s).draws = s.draws := rfl
@[simp] theorem setStatus_fresh (c : ResultCode) (s : State) :
    (setStatus c s).fresh = s.fresh := rfl

/-! Leaving a result writes OLEN and OBUF (R15, R20). -/

@[simp] theorem setResult_cfg (bs : List Byte) (s : State) :
    (setResult bs s).cfg = s.cfg := rfl
@[simp] theorem setResult_code (bs : List Byte) (s : State) :
    (setResult bs s).code = s.code := rfl
@[simp] theorem setResult_done (bs : List Byte) (s : State) :
    (setResult bs s).done = s.done := rfl
@[simp] theorem setResult_dlen (bs : List Byte) (s : State) :
    (setResult bs s).dlen = s.dlen := rfl
@[simp] theorem setResult_klen (bs : List Byte) (s : State) :
    (setResult bs s).klen = s.klen := rfl
@[simp] theorem setResult_olen (bs : List Byte) (s : State) :
    (setResult bs s).olen = BitVec.ofNat 32 bs.length := rfl
@[simp] theorem setResult_ibuf (bs : List Byte) (s : State) :
    (setResult bs s).ibuf = s.ibuf := rfl
@[simp] theorem setResult_kbuf (bs : List Byte) (s : State) :
    (setResult bs s).kbuf = s.kbuf := rfl
@[simp] theorem setResult_obuf (bs : List Byte) (s : State) :
    (setResult bs s).obuf = Memory.ofSeq 0 bs := rfl
@[simp] theorem setResult_pending (bs : List Byte) (s : State) :
    (setResult bs s).pending = s.pending := rfl
@[simp] theorem setResult_replies (bs : List Byte) (s : State) :
    (setResult bs s).replies = s.replies := rfl
@[simp] theorem setResult_draws (bs : List Byte) (s : State) :
    (setResult bs s).draws = s.draws := rfl
@[simp] theorem setResult_fresh (bs : List Byte) (s : State) :
    (setResult bs s).fresh = s.fresh := rfl

/-! A successful ENC or DEC (R67, R71). -/

@[simp] theorem finish_cfg (bs : List Byte) (s : State) :
    (finish bs s).cfg = s.cfg := rfl
@[simp] theorem finish_code (bs : List Byte) (s : State) :
    (finish bs s).code = .ok := rfl
@[simp] theorem finish_done (bs : List Byte) (s : State) :
    (finish bs s).done = true := rfl
@[simp] theorem finish_dlen (bs : List Byte) (s : State) :
    (finish bs s).dlen = s.dlen := rfl
@[simp] theorem finish_klen (bs : List Byte) (s : State) :
    (finish bs s).klen = s.klen := rfl
@[simp] theorem finish_olen (bs : List Byte) (s : State) :
    (finish bs s).olen = BitVec.ofNat 32 bs.length := rfl
@[simp] theorem finish_ibuf (bs : List Byte) (s : State) :
    (finish bs s).ibuf = s.ibuf := rfl
@[simp] theorem finish_kbuf (bs : List Byte) (s : State) :
    (finish bs s).kbuf = s.kbuf := rfl
@[simp] theorem finish_obuf (bs : List Byte) (s : State) :
    (finish bs s).obuf = Memory.ofSeq 0 bs := rfl
@[simp] theorem finish_pending (bs : List Byte) (s : State) :
    (finish bs s).pending = s.pending := rfl
@[simp] theorem finish_replies (bs : List Byte) (s : State) :
    (finish bs s).replies = s.replies := rfl
@[simp] theorem finish_draws (bs : List Byte) (s : State) :
    (finish bs s).draws = s.draws := rfl
@[simp] theorem finish_fresh (bs : List Byte) (s : State) :
    (finish bs s).fresh = s.fresh := rfl

/-! The failure procedure (R90). -/

@[simp] theorem raiseFail_cfg (c : ResultCode) (s : State) :
    (raiseFail c s).cfg = s.cfg := rfl
@[simp] theorem raiseFail_code (c : ResultCode) (s : State) :
    (raiseFail c s).code = c := rfl
@[simp] theorem raiseFail_done (c : ResultCode) (s : State) :
    (raiseFail c s).done = true := rfl
@[simp] theorem raiseFail_dlen (c : ResultCode) (s : State) :
    (raiseFail c s).dlen = s.dlen := rfl
@[simp] theorem raiseFail_klen (c : ResultCode) (s : State) :
    (raiseFail c s).klen = s.klen := rfl
@[simp] theorem raiseFail_olen (c : ResultCode) (s : State) :
    (raiseFail c s).olen = BitVec.ofNat 32 (failureValue s.cfg.failPolicy).length := rfl
@[simp] theorem raiseFail_ibuf (c : ResultCode) (s : State) :
    (raiseFail c s).ibuf = s.ibuf := rfl
@[simp] theorem raiseFail_kbuf (c : ResultCode) (s : State) :
    (raiseFail c s).kbuf = s.kbuf := rfl
@[simp] theorem raiseFail_obuf (c : ResultCode) (s : State) :
    (raiseFail c s).obuf = Memory.ofSeq 0 (failureValue s.cfg.failPolicy) := rfl
@[simp] theorem raiseFail_pending (c : ResultCode) (s : State) :
    (raiseFail c s).pending = s.pending := rfl
@[simp] theorem raiseFail_replies (c : ResultCode) (s : State) :
    (raiseFail c s).replies = s.replies := rfl
@[simp] theorem raiseFail_draws (c : ResultCode) (s : State) :
    (raiseFail c s).draws = s.draws := rfl
@[simp] theorem raiseFail_fresh (c : ResultCode) (s : State) :
    (raiseFail c s).fresh = s.fresh := rfl

/-! A reply reaches the host and changes no other field (R36). -/

@[simp] theorem pushReply_cfg (r : Reply) (s : State) :
    (pushReply r s).cfg = s.cfg := rfl
@[simp] theorem pushReply_code (r : Reply) (s : State) :
    (pushReply r s).code = s.code := rfl
@[simp] theorem pushReply_done (r : Reply) (s : State) :
    (pushReply r s).done = s.done := rfl
@[simp] theorem pushReply_dlen (r : Reply) (s : State) :
    (pushReply r s).dlen = s.dlen := rfl
@[simp] theorem pushReply_klen (r : Reply) (s : State) :
    (pushReply r s).klen = s.klen := rfl
@[simp] theorem pushReply_olen (r : Reply) (s : State) :
    (pushReply r s).olen = s.olen := rfl
@[simp] theorem pushReply_ibuf (r : Reply) (s : State) :
    (pushReply r s).ibuf = s.ibuf := rfl
@[simp] theorem pushReply_kbuf (r : Reply) (s : State) :
    (pushReply r s).kbuf = s.kbuf := rfl
@[simp] theorem pushReply_obuf (r : Reply) (s : State) :
    (pushReply r s).obuf = s.obuf := rfl
@[simp] theorem pushReply_pending (r : Reply) (s : State) :
    (pushReply r s).pending = s.pending := rfl
@[simp] theorem pushReply_replies (r : Reply) (s : State) :
    (pushReply r s).replies = s.replies ++ [r] := rfl
@[simp] theorem pushReply_draws (r : Reply) (s : State) :
    (pushReply r s).draws = s.draws := rfl
@[simp] theorem pushReply_fresh (r : Reply) (s : State) :
    (pushReply r s).fresh = s.fresh := rfl

/-! The reset event (R97). -/

@[simp] theorem applyReset_cfg (s : State) :
    (applyReset s).cfg = s.cfg := rfl
@[simp] theorem applyReset_code (s : State) :
    (applyReset s).code = .ok := rfl
@[simp] theorem applyReset_done (s : State) :
    (applyReset s).done = false := rfl
@[simp] theorem applyReset_dlen (s : State) :
    (applyReset s).dlen = 0 := rfl
@[simp] theorem applyReset_klen (s : State) :
    (applyReset s).klen = 0 := rfl
@[simp] theorem applyReset_olen (s : State) :
    (applyReset s).olen = 0 := rfl
@[simp] theorem applyReset_ibuf (s : State) :
    (applyReset s).ibuf = [] := rfl
@[simp] theorem applyReset_kbuf (s : State) :
    (applyReset s).kbuf = [] := rfl
@[simp] theorem applyReset_obuf (s : State) :
    (applyReset s).obuf = [] := rfl
@[simp] theorem applyReset_pending (s : State) :
    (applyReset s).pending = s.pending := rfl
@[simp] theorem applyReset_replies (s : State) :
    (applyReset s).replies = s.replies := rfl
@[simp] theorem applyReset_draws (s : State) :
    (applyReset s).draws = s.draws := rfl
@[simp] theorem applyReset_fresh (s : State) :
    (applyReset s).fresh = s.fresh := rfl

/-! The host issues a transaction. -/

@[simp] theorem issueFirst_cfg (t : Transaction) (s : State) :
    (issueFirst t s).cfg = s.cfg := rfl
@[simp] theorem issueFirst_code (t : Transaction) (s : State) :
    (issueFirst t s).code = s.code := rfl
@[simp] theorem issueFirst_done (t : Transaction) (s : State) :
    (issueFirst t s).done = s.done := rfl
@[simp] theorem issueFirst_dlen (t : Transaction) (s : State) :
    (issueFirst t s).dlen = s.dlen := rfl
@[simp] theorem issueFirst_klen (t : Transaction) (s : State) :
    (issueFirst t s).klen = s.klen := rfl
@[simp] theorem issueFirst_olen (t : Transaction) (s : State) :
    (issueFirst t s).olen = s.olen := rfl
@[simp] theorem issueFirst_ibuf (t : Transaction) (s : State) :
    (issueFirst t s).ibuf = s.ibuf := rfl
@[simp] theorem issueFirst_kbuf (t : Transaction) (s : State) :
    (issueFirst t s).kbuf = s.kbuf := rfl
@[simp] theorem issueFirst_obuf (t : Transaction) (s : State) :
    (issueFirst t s).obuf = s.obuf := rfl
@[simp] theorem issueFirst_pending (t : Transaction) (s : State) :
    (issueFirst t s).pending = t :: s.pending := rfl
@[simp] theorem issueFirst_replies (t : Transaction) (s : State) :
    (issueFirst t s).replies = s.replies := rfl
@[simp] theorem issueFirst_draws (t : Transaction) (s : State) :
    (issueFirst t s).draws = s.draws := rfl
@[simp] theorem issueFirst_fresh (t : Transaction) (s : State) :
    (issueFirst t s).fresh = s.fresh := rfl

/-! A host write of a register reaches DLEN and KLEN alone (R34). -/

@[simp] theorem storeReg_cfg (r : Reg) (v : Word) (s : State) :
    (storeReg r v s).cfg = s.cfg := by cases r <;> rfl
@[simp] theorem storeReg_code (r : Reg) (v : Word) (s : State) :
    (storeReg r v s).code = s.code := by cases r <;> rfl
@[simp] theorem storeReg_done (r : Reg) (v : Word) (s : State) :
    (storeReg r v s).done = s.done := by cases r <;> rfl
@[simp] theorem storeReg_olen (r : Reg) (v : Word) (s : State) :
    (storeReg r v s).olen = s.olen := by cases r <;> rfl
@[simp] theorem storeReg_ibuf (r : Reg) (v : Word) (s : State) :
    (storeReg r v s).ibuf = s.ibuf := by cases r <;> rfl
@[simp] theorem storeReg_kbuf (r : Reg) (v : Word) (s : State) :
    (storeReg r v s).kbuf = s.kbuf := by cases r <;> rfl
@[simp] theorem storeReg_obuf (r : Reg) (v : Word) (s : State) :
    (storeReg r v s).obuf = s.obuf := by cases r <;> rfl
@[simp] theorem storeReg_pending (r : Reg) (v : Word) (s : State) :
    (storeReg r v s).pending = s.pending := by cases r <;> rfl
@[simp] theorem storeReg_replies (r : Reg) (v : Word) (s : State) :
    (storeReg r v s).replies = s.replies := by cases r <;> rfl
@[simp] theorem storeReg_draws (r : Reg) (v : Word) (s : State) :
    (storeReg r v s).draws = s.draws := by cases r <;> rfl
@[simp] theorem storeReg_fresh (r : Reg) (v : Word) (s : State) :
    (storeReg r v s).fresh = s.fresh := by cases r <;> rfl

/-! A host write of a byte reaches IBUF and KBUF alone (R33). -/

@[simp] theorem storeByte_cfg (sp : Space) (i : Nat) (b : Byte) (s : State) :
    (storeByte sp i b s).cfg = s.cfg := by cases sp <;> rfl
@[simp] theorem storeByte_code (sp : Space) (i : Nat) (b : Byte) (s : State) :
    (storeByte sp i b s).code = s.code := by cases sp <;> rfl
@[simp] theorem storeByte_done (sp : Space) (i : Nat) (b : Byte) (s : State) :
    (storeByte sp i b s).done = s.done := by cases sp <;> rfl
@[simp] theorem storeByte_dlen (sp : Space) (i : Nat) (b : Byte) (s : State) :
    (storeByte sp i b s).dlen = s.dlen := by cases sp <;> rfl
@[simp] theorem storeByte_klen (sp : Space) (i : Nat) (b : Byte) (s : State) :
    (storeByte sp i b s).klen = s.klen := by cases sp <;> rfl
@[simp] theorem storeByte_olen (sp : Space) (i : Nat) (b : Byte) (s : State) :
    (storeByte sp i b s).olen = s.olen := by cases sp <;> rfl
@[simp] theorem storeByte_obuf (sp : Space) (i : Nat) (b : Byte) (s : State) :
    (storeByte sp i b s).obuf = s.obuf := by cases sp <;> rfl
@[simp] theorem storeByte_pending (sp : Space) (i : Nat) (b : Byte) (s : State) :
    (storeByte sp i b s).pending = s.pending := by cases sp <;> rfl
@[simp] theorem storeByte_replies (sp : Space) (i : Nat) (b : Byte) (s : State) :
    (storeByte sp i b s).replies = s.replies := by cases sp <;> rfl
@[simp] theorem storeByte_draws (sp : Space) (i : Nat) (b : Byte) (s : State) :
    (storeByte sp i b s).draws = s.draws := by cases sp <;> rfl
@[simp] theorem storeByte_fresh (sp : Space) (i : Nat) (b : Byte) (s : State) :
    (storeByte sp i b s).fresh = s.fresh := by cases sp <;> rfl

end Sys2Proof.Machine
end

