-- ==== Sys2Proof/Laws/Units.lean ====
section
/-! SUPPORT. The small laws of the datapath units: lengths, and when EKD is defined. -/

namespace Sys2Proof.Machine

@[simp] theorem accumulate_length (n k : Nat) (K ek : List Byte) :
    (accumulate n k K ek).length = ek.length := by
  induction K generalizing k ek with
  | nil => rfl
  | cons b K ih => simp [accumulate, ih]

@[simp] theorem ekdAcc_length (n : Nat) (K : List Byte) : (ekdAcc n K).length = n := by
  simp [ekdAcc]

@[simp] theorem ekdRep_length (n : Nat) (K : List Byte) (h : 0 < K.length) : (ekdRep n K h).length = n := by
  simp [ekdRep]

/-- EKD is defined exactly under its preconditions (R53). -/
theorem ekd_isSome_iff (n : Nat) (K : List Byte) : (ekd n K).isSome = true ↔ 0 < n ∧ 0 < K.length := by
  unfold ekd
  split
  · rename_i h
    split <;> simp [h]
  · rename_i h
    simp only [Option.isSome_none, Bool.false_eq_true, false_iff]
    exact h

/-- The effective key has the length of the data (R53). -/
theorem ekd_length {n : Nat} {K EK : List Byte} (h : ekd n K = some EK) : EK.length = n := by
  unfold ekd at h
  split at h
  · split at h <;> cases h <;> simp
  · cases h

theorem exists_ekd {n : Nat} {K : List Byte} (hn : 0 < n) (hK : 0 < K.length) :
    ∃ EK, ekd n K = some EK ∧ EK.length = n := by
  obtain ⟨EK, h⟩ := Option.isSome_iff_exists.1 ((ekd_isSome_iff n K).2 ⟨hn, hK⟩)
  exact ⟨EK, h, ekd_length h⟩

@[simp] theorem SIG_length : SIG.length = 3 := rfl

@[simp] theorem MARKER_length : MARKER.length = 11 := rfl

@[simp] theorem xmask_length (D EK : List Byte) : (xmask D EK).length = min D.length EK.length := by
  simp [xmask]

@[simp] theorem brev_length (M : List Byte) : (brev M).length = M.length := by
  simp [brev]

@[simp] theorem sigtAppend_length (R : List Byte) : (sigtAppend R).length = R.length + 3 := by
  simp [sigtAppend]

/-- A ciphertext is three bytes longer than its plaintext (R59). -/
theorem encrypt_length {P K C : List Byte} (h : encrypt P K = some C) : C.length = P.length + 3 := by
  unfold encrypt at h
  split at h
  · rename_i EK hEK
    cases h
    simp [ekd_length hEK]
  · cases h

/-- A plaintext is three bytes shorter than its ciphertext (R71). -/
theorem decrypt_length {C K P : List Byte} (h : decrypt C K = some P) : P.length = C.length - 3 := by
  unfold decrypt at h
  split at h
  · rename_i EK hEK
    cases h
    simp [ekd_length hEK]
  · cases h

theorem exists_encrypt {P K : List Byte} (hP : 0 < P.length) (hK : 0 < K.length) :
    ∃ C, encrypt P K = some C := by
  obtain ⟨EK, h, -⟩ := exists_ekd hP hK
  unfold encrypt
  rw [h]
  exact ⟨_, rfl⟩

theorem exists_decrypt {C K : List Byte} (hC : 3 < C.length) (hK : 0 < K.length) :
    ∃ P, decrypt C K = some P := by
  obtain ⟨EK, h, -⟩ := exists_ekd (n := C.length - 3) (by omega) hK
  unfold decrypt
  rw [h]
  exact ⟨_, rfl⟩

end Sys2Proof.Machine
end

