-- ==== Sys2Proof/Laws/Ops.lean ====
section
/-! SUPPORT. For each shared operation, one lemma that says everything it can do. -/

namespace Sys2Proof.Machine

/-- After a command STATUS reads as 0x10 plus the code: DONE is bit 4, CODE bits [3:0], the rest 0 (R16, R17). -/
theorem statusWord_setStatus (c : ResultCode) (s : State) :
    statusWord (setStatus c s) = 0x10#32 + (codeNumber c).setWidth 32 := by
  simp only [statusWord, setStatus_done, setStatus_code]
  cases c <;> decide

/-- The failure procedure leaves what R90 and R91 say. -/
theorem raiseFail_failsTo (c : ResultCode) (s : State) : FailsTo s c (raiseFail c s) := by
  refine ⟨?_, fun h => ?_, fun h => ?_, rfl⟩
  · exact statusWord_setStatus c _
  · simp [h, failureValue, Memory.IsExactly]
  · simp [h, failureValue, Memory.IsExactly]

/-- A failure value fits OBUF (R5, R91). -/
theorem failureValue_length_le (c : Config) : (failureValue c.failPolicy).length ≤ capacity c .obuf := by
  unfold capacity
  cases h : c.failPolicy <;> simp [failureValue]

@[simp] theorem statusWord_finish (bs : List Byte) (s : State) : statusWord (finish bs s) = 0x10#32 :=
  statusWord_setStatus .ok _

/-- A draw lies in `KEY_MIN .. 255` (R77). -/
theorem keyMin_le_drawInRange (c : Config) (d : Byte) : c.keyMin.val ≤ (drawInRange c d).toNat := by
  unfold drawInRange
  split
  · have := c.keyMin.isLt
    rw [BitVec.toNat_ofNat]
    omega
  · omega

theorem drawInRange_of_le {c : Config} {d : Byte} (h : c.keyMin.val ≤ d.toNat) : drawInRange c d = d := by
  rw [drawInRange, if_neg (by omega)]

/-- One draw uses up at most one supplied value and one free value, and changes no other field. -/
theorem takeDraw_state (s : State) :
    ∃ f, (takeDraw s).2 = { s with draws := s.draws.drop 1, fresh := f } := by
  unfold takeDraw
  cases h : s.draws with
  | nil => exact ⟨s.fresh + 1, by simp⟩
  | cons d rest => exact ⟨s.fresh, rfl⟩

/-- `n` draws use up the first `n` supplied values and change no other field but the counter. -/
theorem takeDraws_state (n : Nat) (s : State) :
    ∃ f, (takeDraws n s).2 = { s with draws := s.draws.drop n, fresh := f } := by
  induction n generalizing s with
  | zero => exact ⟨s.fresh, rfl⟩
  | succ n ih =>
    obtain ⟨f, hf⟩ := takeDraw_state s
    obtain ⟨g, hg⟩ := ih (takeDraw s).2
    refine ⟨g, ?_⟩
    show (takeDraws n (takeDraw s).2).2 = _
    rw [hg, hf]
    simp

@[simp] theorem takeDraws_length (n : Nat) (s : State) : (takeDraws n s).1.length = n := by
  induction n generalizing s with
  | zero => rfl
  | succ n ih =>
    show ((takeDraw s).1 :: (takeDraws n (takeDraw s).2).1).length = _
    simp [ih]

/-- Every draw of `n` lies in `KEY_MIN .. 255` (R77). -/
theorem keyMin_le_takeDraws (n : Nat) (s : State) {b : Byte} (h : b ∈ (takeDraws n s).1) :
    s.cfg.keyMin.val ≤ b.toNat := by
  induction n generalizing s with
  | zero => cases h
  | succ n ih =>
    rcases List.mem_cons.1 (show b ∈ (takeDraw s).1 :: (takeDraws n (takeDraw s).2).1 from h) with rfl | h
    · unfold takeDraw
      split <;> exact keyMin_le_drawInRange _ _
    · obtain ⟨f, hf⟩ := takeDraw_state s
      have := ih _ h
      rwa [hf] at this

/-- The supplied draws are used in order (R78). -/
theorem takeDraws_supplied {n k : Nat} {s : State} {d : Byte} (hk : k < n) (hd : s.draws[k]? = some d) :
    (takeDraws n s).1[k]? = some (drawInRange s.cfg d) := by
  induction n generalizing s k with
  | zero => omega
  | succ n ih =>
    show ((takeDraw s).1 :: (takeDraws n (takeDraw s).2).1)[k]? = _
    obtain ⟨f, hf⟩ := takeDraw_state s
    cases k with
    | zero =>
      unfold takeDraw
      cases hs : s.draws with
      | nil => simp [hs] at hd
      | cons x rest =>
        rw [hs] at hd
        simp at hd
        simp [hd]
    | succ k =>
      have : (takeDraw s).2.draws[k]? = some d := by
        rw [hf]
        simpa [Nat.add_comm] using hd
      have := ih (by omega) this
      rw [List.getElem?_cons_succ, this, hf]

/-- A read sequence is what the cells hold. -/
theorem holds_of_readSeq {m : Memory} {n : Nat} {bs : List Byte} (h : m.readSeq 0 n = .ok bs) :
    bs.length = n ∧ m.Holds bs := by
  obtain ⟨hl, h⟩ := (Memory.readSeq_ok_iff m 0 n bs).1 h
  exact ⟨hl, fun i hi => by simpa using h i (by omega)⟩

theorem readSeq_of_holds {m : Memory} {n : Nat} {bs : List Byte} (hl : bs.length = n) (h : m.Holds bs) :
    m.readSeq 0 n = .ok bs :=
  (Memory.readSeq_ok_iff m 0 n bs).2 ⟨hl, fun j hj => by simpa using h j (by omega)⟩

/-- Where every cell below `n` is written, the buffer holds a sequence of length `n`. -/
theorem exists_holds_of_written {m : Memory} {n : Nat} (h : m.Written n) :
    ∃ bs : List Byte, bs.length = n ∧ m.Holds bs := by
  cases hr : m.readSeq 0 n with
  | ok bs => exact ⟨bs, holds_of_readSeq hr⟩
  | error k =>
    obtain ⟨-, h₂, h₃, -⟩ := (Memory.readSeq_error_iff _ _ _ _).1 hr
    have := h k (by omega)
    simp [h₃] at this

/-- A command that reads a sequence the buffer holds goes on with it. -/
theorem withSeq_of_holds {s : State} {sp : Space} {n : Nat} {bs : List Byte} {k : List Byte → Answer}
    (hl : bs.length = n) (h : (buffer s sp).Holds bs) : withSeq s sp n k = k bs := by
  rw [withSeq, readSeq_of_holds hl h]

/-- A command that reads a sequence with an unwritten cell faults at the first one (R21). -/
theorem withSeq_of_unwritten {s : State} {sp : Space} {n i : Nat} {k : List Byte → Answer} (hi : i < n)
    (hr : (buffer s sp).read i = none) (hw : (buffer s sp).Written i) :
    withSeq s sp n k = .fault (.unwrittenCell sp i) := by
  rw [withSeq, (Memory.readSeq_error_iff _ 0 n i).2 ⟨Nat.zero_le i, by omega, hr, fun j _ h => hw j h⟩]

/-- Everything reading an operand can do: go on with the sequence held, or fault at the first unwritten cell. -/
theorem withSeq_cases (s : State) (sp : Space) (n : Nat) (k : List Byte → Answer) :
    (∃ bs, bs.length = n ∧ (buffer s sp).Holds bs ∧ withSeq s sp n k = k bs) ∨
    (∃ i, i < n ∧ (buffer s sp).read i = none ∧ (∀ j, j < i → ((buffer s sp).read j).isSome = true) ∧
      withSeq s sp n k = .fault (.unwrittenCell sp i)) := by
  unfold withSeq
  cases h : (buffer s sp).readSeq 0 n with
  | ok bs =>
    obtain ⟨hl, hh⟩ := holds_of_readSeq h
    exact .inl ⟨bs, hl, hh, rfl⟩
  | error i =>
    obtain ⟨-, h₂, h₃, h₄⟩ := (Memory.readSeq_error_iff _ _ _ _).1 h
    exact .inr ⟨i, by omega, h₃, fun j hj => h₄ j (by omega) hj, rfl⟩

end Sys2Proof.Machine
end

