-- ==== Sys2Proof/Laws/Commands.lean ====
section
/-! SUPPORT. For each command, one lemma that says everything it can do; for a step, the same. -/

namespace Sys2Proof.Machine

/-- ENC within capacity, with both operands held, is the composition of the units (R67). -/
theorem execEnc_of_holds {s : State} {P K C : List Byte} (hP : P.length = s.dlen.toNat)
    (hK : K.length = s.klen.toNat) (hP₀ : 0 < P.length) (hK₀ : 0 < K.length) (hPc : P.length ≤ s.cfg.dcap)
    (hKc : K.length ≤ s.cfg.kcap) (hi : s.ibuf.Holds P) (hk : s.kbuf.Holds K) (hC : encrypt P K = some C) :
    execEnc s = .next (finish C s) := by
  rw [execEnc, if_neg (by omega), if_neg (by omega), if_neg (by omega),
    withSeq_of_holds (sp := .ibuf) hP hi, withSeq_of_holds (sp := .kbuf) hK hk, hC, finishWith]

/-- DEC within capacity, with both operands held and a valid signature, is the composition of the units (R71). -/
theorem execDec_of_holds {s : State} {C K P : List Byte} (hC : C.length = s.dlen.toNat)
    (hK : K.length = s.klen.toNat) (hC₀ : 4 ≤ C.length) (hK₀ : 0 < K.length) (hCc : C.length ≤ s.cfg.dcap + 3)
    (hKc : K.length ≤ s.cfg.kcap) (hi : s.ibuf.Holds C) (hk : s.kbuf.Holds K) (hv : sigtValidate C = true)
    (hP : decrypt C K = some P) : execDec s = .next (finish P s) := by
  rw [execDec, if_neg (by omega), if_neg (by omega), if_neg (by omega),
    withSeq_of_holds (sp := .ibuf) hC hi, if_pos hv, withSeq_of_holds (sp := .kbuf) hK hk, hP, finishWith]

/-- Everything ENC can do: fail with a code, succeed, or fault at an unwritten cell of an operand. -/
theorem execEnc_cases (s : State) :
    (∃ c, c ≠ .ok ∧ execEnc s = .next (raiseFail c s)) ∨
    (∃ P K C, P.length = s.dlen.toNat ∧ K.length = s.klen.toNat ∧ 0 < P.length ∧ 0 < K.length ∧
      P.length ≤ s.cfg.dcap ∧ K.length ≤ s.cfg.kcap ∧ s.ibuf.Holds P ∧ s.kbuf.Holds K ∧
      encrypt P K = some C ∧ execEnc s = .next (finish C s)) ∨
    (∃ i, i < s.dlen.toNat ∧ s.ibuf.read i = none ∧ execEnc s = .fault (.unwrittenCell .ibuf i)) ∨
    (∃ i, i < s.klen.toNat ∧ s.kbuf.read i = none ∧ execEnc s = .fault (.unwrittenCell .kbuf i)) := by
  by_cases h₁ : s.dlen.toNat > s.cfg.dcap ∨ s.klen.toNat > s.cfg.kcap
  · exact .inl ⟨.errLen, by decide, by rw [execEnc, if_pos h₁]⟩
  by_cases h₂ : s.dlen.toNat = 0
  · exact .inl ⟨.errEmptyData, by decide, by rw [execEnc, if_neg h₁, if_pos h₂]⟩
  by_cases h₃ : s.klen.toNat = 0
  · exact .inl ⟨.errEmptyKeys, by decide, by rw [execEnc, if_neg h₁, if_neg h₂, if_pos h₃]⟩
  have e := by
    have := execEnc.eq_1 s
    rwa [if_neg h₁, if_neg h₂, if_neg h₃] at this
  rcases withSeq_cases s .ibuf (s.dlen.toNat)
      (fun P => withSeq s .kbuf (s.klen.toNat) fun K => finishWith (encrypt P K) s) with
    ⟨P, hPl, hPh, hP⟩ | ⟨i, hi, hr, -, hf⟩
  · rcases withSeq_cases s .kbuf (s.klen.toNat) (fun K => finishWith (encrypt P K) s) with
      ⟨K, hKl, hKh, hK⟩ | ⟨i, hi, hr, -, hf⟩
    · obtain ⟨C, hC⟩ := exists_encrypt (P := P) (K := K) (by omega) (by omega)
      refine .inr (.inl ⟨P, K, C, hPl, hKl, by omega, by omega, by omega, by omega, hPh, hKh, hC, ?_⟩)
      rw [e, hP, hK, hC, finishWith]
    · exact .inr (.inr (.inr ⟨i, hi, hr, by rw [e, hP, hf]⟩))
  · exact .inr (.inr (.inl ⟨i, hi, hr, by rw [e, hf]⟩))

/-- Everything DEC can do: fail with a code, succeed, or fault at an unwritten cell of an operand. -/
theorem execDec_cases (s : State) :
    (∃ c, c ≠ .ok ∧ execDec s = .next (raiseFail c s)) ∨
    (∃ C K P, C.length = s.dlen.toNat ∧ K.length = s.klen.toNat ∧ 4 ≤ C.length ∧ 0 < K.length ∧
      C.length ≤ s.cfg.dcap + 3 ∧ K.length ≤ s.cfg.kcap ∧ s.ibuf.Holds C ∧ s.kbuf.Holds K ∧
      sigtValidate C = true ∧ decrypt C K = some P ∧ execDec s = .next (finish P s)) ∨
    (∃ i, i < s.dlen.toNat ∧ s.ibuf.read i = none ∧ execDec s = .fault (.unwrittenCell .ibuf i)) ∨
    (∃ i, i < s.klen.toNat ∧ s.kbuf.read i = none ∧ execDec s = .fault (.unwrittenCell .kbuf i)) := by
  by_cases h₁ : s.dlen.toNat > s.cfg.dcap + 3 ∨ s.klen.toNat > s.cfg.kcap
  · exact .inl ⟨.errLen, by decide, by rw [execDec, if_pos h₁]⟩
  by_cases h₂ : s.klen.toNat = 0
  · exact .inl ⟨.errEmptyKeys, by decide, by rw [execDec, if_neg h₁, if_pos h₂]⟩
  by_cases h₃ : s.dlen.toNat < 4
  · exact .inl ⟨.errShort, by decide, by rw [execDec, if_neg h₁, if_neg h₂, if_pos h₃]⟩
  have e := by
    have := execDec.eq_1 s
    rwa [if_neg h₁, if_neg h₂, if_neg h₃] at this
  rcases withSeq_cases s .ibuf (s.dlen.toNat)
      (fun C => if sigtValidate C = true then
          withSeq s .kbuf (s.klen.toNat) fun K => finishWith (decrypt C K) s
        else .next (raiseFail .errSig s)) with
    ⟨C, hCl, hCh, hC⟩ | ⟨i, hi, hr, -, hf⟩
  · by_cases hv : sigtValidate C = true
    · rw [if_pos hv] at hC
      rcases withSeq_cases s .kbuf (s.klen.toNat) (fun K => finishWith (decrypt C K) s) with
        ⟨K, hKl, hKh, hK⟩ | ⟨i, hi, hr, -, hf⟩
      · obtain ⟨P, hP⟩ := exists_decrypt (C := C) (K := K) (by omega) (by omega)
        refine .inr (.inl ⟨C, K, P, hCl, hKl, by omega, by omega, by omega, by omega, hCh, hKh, hv, hP, ?_⟩)
        rw [e, hC, hK, hP, finishWith]
      · exact .inr (.inr (.inr ⟨i, hi, hr, by rw [e, hC, hf]⟩))
    · rw [if_neg hv] at hC
      exact .inl ⟨.errSig, by decide, by rw [e, hC]⟩
  · exact .inr (.inr (.inl ⟨i, hi, hr, by rw [e, hf]⟩))

/-- Everything KGEN can do: fail with a code, or write `x[KLEN]` draws to KBUF. -/
theorem execKgen_cases (s : State) :
    (∃ c, c ≠ .ok ∧ execKgen s = .next (raiseFail c s)) ∨
    (s.cfg.hasKgen = true ∧ s.klen.toNat ≤ s.cfg.kcap ∧ ∃ f,
      execKgen s = .next (setStatus .ok
        { s with
          kbuf := s.kbuf.writeSeq 0 (takeDraws s.klen.toNat s).1
          draws := s.draws.drop (s.klen.toNat)
          fresh := f })) := by
  unfold execKgen
  split
  · rename_i hg
    split
    · exact .inl ⟨.errLen, by decide, rfl⟩
    · rename_i hk
      obtain ⟨f, hf⟩ := takeDraws_state (s.klen.toNat) s
      exact .inr ⟨hg, by omega, f, by simp only [hf]⟩
  · exact .inl ⟨.errIllcmd, by decide, rfl⟩

/-- Everything a command can do when it completes: fail with a code, leave a result, or (KGEN) draw keys. -/
theorem exec_next_cases {i : Instr} {s t : State} (h : exec i s = .next t) :
    (∃ c, c ≠ .ok ∧ t = raiseFail c s) ∨
    (i ≠ .kgen ∧ ∃ bs, 0 < bs.length ∧ bs.length ≤ s.cfg.dcap + 3 ∧ t = finish bs s) ∨
    (i = .kgen ∧ s.klen.toNat ≤ s.cfg.kcap ∧ ∃ f, t = setStatus .ok
      { s with
        kbuf := s.kbuf.writeSeq 0 (takeDraws s.klen.toNat s).1
        draws := s.draws.drop (s.klen.toNat)
        fresh := f }) := by
  cases i with
  | enc =>
    rcases execEnc_cases s with ⟨c, hc, e⟩ | ⟨P, K, C, h₁, h₂, h₃, h₄, h₅, h₆, h₇, h₈, h₉, e⟩ | ⟨_, _, _, e⟩ |
      ⟨_, _, _, e⟩ <;> simp only [exec, e, Host.Outcome.next.injEq, reduceCtorEq] at h
    · exact .inl ⟨c, hc, h.symm⟩
    · have := encrypt_length h₉
      exact .inr (.inl ⟨by decide, C, by omega, by omega, h.symm⟩)
  | dec =>
    rcases execDec_cases s with ⟨c, hc, e⟩ | ⟨C, K, P, h₁, h₂, h₃, h₄, h₅, h₆, h₇, h₈, h₉, h₁₀, e⟩ |
      ⟨_, _, _, e⟩ | ⟨_, _, _, e⟩ <;> simp only [exec, e, Host.Outcome.next.injEq, reduceCtorEq] at h
    · exact .inl ⟨c, hc, h.symm⟩
    · have := decrypt_length h₁₀
      exact .inr (.inl ⟨by decide, P, by omega, by omega, h.symm⟩)
  | kgen =>
    rcases execKgen_cases s with ⟨c, hc, e⟩ | ⟨-, hk, f, e⟩ <;>
      simp only [exec, e, Host.Outcome.next.injEq] at h
    · exact .inl ⟨c, hc, h.symm⟩
    · exact .inr (.inr ⟨rfl, hk, f, h.symm⟩)

/-- Everything a step can do when it answers a next state: idle, a read, a store, a command or a failure by a
reserved word, or reset. -/
theorem step_next_cases {s t : State} (h : step s = .next t) :
    (s.pending = [] ∧ t = s) ∨
    ∃ x rest, s.pending = x :: rest ∧ perform x { s with pending := rest } = .next t := by
  unfold step transact at h
  split at h
  · rename_i hp
    exact .inl ⟨hp, by cases h; rfl⟩
  · rename_i x rest hp
    exact .inr ⟨x, rest, hp, h⟩

/-- Everything a transaction can do when it completes. -/
theorem perform_next_cases {x : Transaction} {s t : State} (h : perform x s = .next t) :
    (∃ r reg, x = .regRead r ∧ regOfNumber r = some reg ∧ t = pushReply (.word (readReg s reg)) s) ∨
    (∃ r reg v, x = .regWrite r v ∧ regOfNumber r = some reg ∧ reg ≠ .cmd ∧ t = storeReg reg v s) ∨
    (∃ v i, x = .regWrite 0 v ∧ decode s.cfg v = .ok i ∧ exec i s = .next t) ∨
    (∃ v e, x = .regWrite 0 v ∧ decode s.cfg v = .error e ∧ t = raiseFail .errIllcmd s) ∨
    (∃ sp i b f, x = .bufRead sp i ∧ i < capacity s.cfg sp ∧
      t = pushReply (.byte b) { s with fresh := f } ∧ ∀ c, (buffer s sp).read i = some c → b = c) ∨
    (∃ sp i b, x = .bufWrite sp i b ∧ i < capacity s.cfg sp ∧ t = storeByte sp i b s) ∨
    (x = .reset ∧ t = applyReset s) := by
  cases x with
  | regRead r =>
    simp only [perform, performRegRead] at h
    split at h
    · rename_i reg hr
      exact .inl ⟨r, reg, rfl, hr, by cases h; rfl⟩
    · cases h
  | regWrite r v =>
    simp only [perform, performRegWrite] at h
    split at h
    · rename_i hr
      have hr0 : r = 0 := by
        unfold regOfNumber at hr
        split at hr <;> first | rfl | cases hr
      subst hr0
      unfold commandWrite at h
      split at h
      · rename_i i hd
        exact .inr (.inr (.inl ⟨v, i, rfl, hd, h⟩))
      · rename_i e hd
        exact .inr (.inr (.inr (.inl ⟨v, e, rfl, hd, by cases h; rfl⟩)))
    · rename_i reg hne hr
      exact .inr (.inl ⟨r, reg, v, rfl, hr, hne, by cases h; rfl⟩)
    · cases h
  | bufRead sp i =>
    simp only [perform, performBufRead] at h
    split at h
    · rename_i hi
      refine .inr (.inr (.inr (.inr (.inl ?_))))
      split at h
      · rename_i b hb
        exact ⟨sp, i, b, s.fresh, rfl, hi, by cases h; rfl, fun c hc => Option.some.inj (hb.symm.trans hc)⟩
      · rename_i hn
        exact ⟨sp, i, _, s.fresh + 1, rfl, hi, by cases h; rfl, fun c hc => by rw [hn] at hc; cases hc⟩
    · cases h
  | bufWrite sp i b =>
    simp only [perform, performBufWrite] at h
    split at h
    · rename_i hi
      exact .inr (.inr (.inr (.inr (.inr (.inl ⟨sp, i, b, rfl, hi, by cases h; rfl⟩)))))
    · cases h
  | reset =>
    exact .inr (.inr (.inr (.inr (.inr (.inr ⟨rfl, by cases h; rfl⟩)))))

/-- The draws do not look at what is pending. -/
theorem takeDraws_setPending (n : Nat) (s : State) (p : List Transaction) :
    takeDraws n { s with pending := p } = ((takeDraws n s).1, { (takeDraws n s).2 with pending := p }) := by
  induction n generalizing s with
  | zero => rfl
  | succ n ih =>
    have : takeDraw { s with pending := p } = ((takeDraw s).1, { (takeDraw s).2 with pending := p }) := by
      unfold takeDraw
      cases h : s.draws <;> simp
    simp only [takeDraws, this, ih]

/-- A command does not look at what is pending. -/
theorem exec_setPending {i : Instr} {s t : State} {p : List Transaction} (h : exec i s = .next t) :
    exec i { s with pending := p } = .next { t with pending := p } := by
  cases i
  · show execEnc _ = _
    have h : execEnc s = _ := h
    revert h
    unfold execEnc withSeq finishWith
    dsimp only [buffer]
    repeat' split
    all_goals
      intro h
      cases h <;> rfl
  · show execDec _ = _
    have h : execDec s = _ := h
    revert h
    unfold execDec withSeq finishWith
    dsimp only [buffer]
    repeat' split
    all_goals
      intro h
      cases h <;> rfl
  · show execKgen _ = _
    have h : execKgen s = _ := h
    revert h
    unfold execKgen
    dsimp only
    rw [takeDraws_setPending s.klen.toNat s p]
    repeat' split
    all_goals
      intro h
      cases h; rfl

/-- A transaction neither looks at what is pending nor changes it. -/
theorem perform_setPending {x : Transaction} {s t : State} {p : List Transaction} (h : perform x s = .next t) :
    perform x { s with pending := p } = .next { t with pending := p } ∧ t.pending = s.pending := by
  have bf : ∀ sp, buffer { s with pending := p } sp = buffer s sp := fun sp => by cases sp <;> rfl
  cases x with
  | regRead r =>
    simp only [perform, performRegRead] at h ⊢
    split at h <;> cases h
    rename_i reg h
    cases reg <;> exact ⟨rfl, rfl⟩
  | regWrite r v =>
    simp only [perform, performRegWrite] at h ⊢
    split at h
    · unfold commandWrite at h ⊢
      split at h
      · rename_i i hd
        have hd' : decode ({ s with pending := p } : State).cfg v = .ok i := hd
        refine ⟨by rw [hd']; exact exec_setPending h, ?_⟩
        rcases exec_next_cases h with ⟨_, -, rfl⟩ | ⟨-, _, -, -, rfl⟩ | ⟨-, -, _, rfl⟩ <;> rfl
      · rename_i e hd
        have hd' : decode ({ s with pending := p } : State).cfg v = .error e := hd
        cases h
        exact ⟨by rw [hd']; rfl, rfl⟩
    · cases h
      rename_i reg _ _
      cases reg <;> exact ⟨rfl, rfl⟩
    · cases h
  | bufRead sp i =>
    simp only [perform, performBufRead, bf] at h ⊢
    split at h
    · rename_i hi
      rw [if_pos hi]
      split at h <;> cases h <;> exact ⟨rfl, rfl⟩
    · cases h
  | bufWrite sp i b =>
    simp only [perform, performBufWrite] at h ⊢
    split at h
    · rename_i hi
      rw [if_pos hi]
      cases h
      cases sp <;> exact ⟨rfl, rfl⟩
    · cases h
  | reset => cases h; exact ⟨rfl, rfl⟩

/-- A run of one step more goes through the step's next state. -/
theorem run_next {k : Nat} {s t : State} (h : step s = .next t) : core.run (k + 1) s = core.run k t := by
  have e := Host.Core.run.eq_def core (k + 1) s
  have h' : core.step s = .next t := h
  simp only [h'] at e
  exact e

end Sys2Proof.Machine
end

