-- ==== Sys2Proof/Laws/PerInstr.lean ====
section
/-! SUPPORT. One family of lemmas per constructor: the fields of a command's word (R42, R44). -/

namespace Sys2Proof.Laws.WordFields

/-- The word of a command has its `zero` field 0 and an `op` that is neither 0x00 nor above 0x03, and no other command
has that word (R42, R44, R45). -/
def Statement (i : Instr) : Prop :=
  zeroField (encode i) = 0 ∧ opField (encode i) ≠ 0 ∧ opField (encode i) ≤ 3 ∧ ∀ j, encode j = encode i → j = i

theorem enc : Statement .enc :=
  ⟨by decide, by decide, by decide, fun j h => by cases j <;> first | rfl | exact absurd h (by decide)⟩

theorem dec : Statement .dec :=
  ⟨by decide, by decide, by decide, fun j h => by cases j <;> first | rfl | exact absurd h (by decide)⟩

theorem kgen : Statement .kgen :=
  ⟨by decide, by decide, by decide, fun j h => by cases j <;> first | rfl | exact absurd h (by decide)⟩

end Sys2Proof.Laws.WordFields
end

