-- ==== Sys2Proof/Laws/Script.lean ====
section
/-! SUPPORT. Host scripts (R51, R52): what a list of transactions, a loading line and a reading line come to. -/

namespace Sys2Proof.Machine

/-- Lists of transactions compose. -/
theorem performAll_append {xs ys : List Transaction} {s t : State} (h : performAll xs s = .next t) :
    performAll (xs ++ ys) s = performAll ys t := by
  induction xs generalizing s with
  | nil => cases h; rfl
  | cons x xs ih =>
    simp only [performAll, List.cons_append] at h ⊢
    cases hx : perform x s with
    | next u => rw [hx] at h; exact ih h
    | fault f => rw [hx] at h; cases h
    | refused r => rw [hx] at h; cases h

/-- Loading a sequence within IBUF writes it there and nothing else (R51). -/
theorem performAll_scriptBytes_ibuf {i : Nat} {bs : List Byte} {s : State}
    (h : i + bs.length ≤ capacity s.cfg .ibuf) :
    performAll (scriptBytes .ibuf i bs) s = .next { s with ibuf := s.ibuf.writeSeq i bs } := by
  induction bs generalizing s i with
  | nil => rfl
  | cons b bs ih =>
    rw [List.length_cons] at h
    simp only [scriptBytes, performAll, perform, performBufWrite]
    rw [if_pos (by omega)]
    exact ih (s := storeByte .ibuf i b s) (by rw [storeByte_cfg]; omega)

/-- Loading a sequence within KBUF writes it there and nothing else (R51). -/
theorem performAll_scriptBytes_kbuf {i : Nat} {bs : List Byte} {s : State}
    (h : i + bs.length ≤ capacity s.cfg .kbuf) :
    performAll (scriptBytes .kbuf i bs) s = .next { s with kbuf := s.kbuf.writeSeq i bs } := by
  induction bs generalizing s i with
  | nil => rfl
  | cons b bs ih =>
    rw [List.length_cons] at h
    simp only [scriptBytes, performAll, perform, performBufWrite]
    rw [if_pos (by omega)]
    exact ih (s := storeByte .kbuf i b s) (by rw [storeByte_cfg]; omega)

/-- `data P` within IBUF (R51). -/
theorem performAll_scriptData {P : List Byte} {s : State} (h : P.length ≤ s.cfg.dcap + 3) :
    performAll (scriptData P) s =
      .next { s with ibuf := s.ibuf.writeSeq 0 P, dlen := BitVec.ofNat 32 P.length } := by
  rw [scriptData, scriptLd, performAll_append (performAll_scriptBytes_ibuf (by simpa [capacity] using h))]
  rfl

/-- `keys K` within KBUF (R51). -/
theorem performAll_scriptKeys {K : List Byte} {s : State} (h : K.length ≤ s.cfg.kcap) :
    performAll (scriptKeys K) s =
      .next { s with kbuf := s.kbuf.writeSeq 0 K, klen := BitVec.ofNat 32 K.length } := by
  rw [scriptKeys, scriptLd, performAll_append (performAll_scriptBytes_kbuf (by simpa [capacity] using h))]
  rfl

/-- A buffer that has had a sequence written from 0 on holds it. -/
theorem Memory.holds_writeSeq (m : Memory) (bs : List Byte) : (m.writeSeq 0 bs).Holds bs := by
  intro i hi
  rw [Memory.read_writeSeq, if_pos (by omega), Nat.sub_zero]

@[simp] theorem replyBytes_map_byte (bs : List Byte) : replyBytes (bs.map .byte) = bs := by
  induction bs with
  | nil => rfl
  | cons b bs ih => simp [replyBytes, ih]

/-- Reading written cells within a buffer shows their bytes and changes no state of the block (R33). -/
theorem performAll_scriptReads {sp : Space} {i : Nat} {bs : List Byte} {s : State}
    (hc : i + bs.length ≤ capacity s.cfg sp) (h : ∀ j, j < bs.length → (buffer s sp).read (i + j) = bs[j]?) :
    performAll (scriptReads sp i bs.length) s = .next { s with replies := s.replies ++ bs.map .byte } := by
  induction bs generalizing s i with
  | nil => simp [scriptReads, performAll]
  | cons b bs ih =>
    rw [List.length_cons] at hc
    have h₀ : (buffer s sp).read i = some b := by simpa using h 0 (by simp)
    have e : buffer (pushReply (.byte b) s) sp = buffer s sp := by cases sp <;> rfl
    simp only [List.length_cons, scriptReads, performAll, perform, performBufRead]
    rw [if_pos (by omega), h₀]
    simp only
    rw [ih (by rw [pushReply_cfg]; omega) fun j hj => by
      rw [e, show i + 1 + j = i + (j + 1) by omega, h (j + 1) (by simpa using hj), List.getElem?_cons_succ]]
    simp [pushReply]

/-- Reading written cells shows exactly their bytes. -/
theorem showBytes_scriptReads {sp : Space} {bs : List Byte} {s : State} (hc : bs.length ≤ capacity s.cfg sp)
    (h : (buffer s sp).Holds bs) :
    showBytes (scriptReads sp 0 bs.length) s = .next (bs, { s with replies := s.replies ++ bs.map .byte }) := by
  rw [showBytes, performAll_scriptReads (by omega) fun j hj => by simpa using h j hj]
  simp

/-- `out` after a result that fits OBUF shows it, and the call returns it where the code is OK, the failure value
otherwise (R52). -/
theorem returnResult_of_holds {bs : List Byte} {t : State} (hl : t.olen.toNat = bs.length)
    (hc : bs.length ≤ capacity t.cfg .obuf) (h : t.obuf.Holds bs) :
    returnResult t = .next (if t.code = .ok then bs else failureValue t.cfg.failPolicy,
      { t with replies := t.replies ++ .word t.olen :: bs.map .byte }) := by
  have e : performAll (scriptOut (readReg t .olen).toNat) t =
      .next { t with replies := t.replies ++ .word t.olen :: bs.map .byte } := by
    rw [show (readReg t .olen).toNat = bs.length from hl, scriptOut,
      show performAll (.regRead 4 :: scriptReads .obuf 0 bs.length) t =
        performAll (scriptReads .obuf 0 bs.length) (pushReply (.word t.olen) t) from rfl,
      performAll_scriptReads (by simpa using hc) fun j hj => by rw [Nat.zero_add]; exact h j hj]
    simp [pushReply]
  simp [returnResult, showBytes, e, replyBytes]

/-- A call that fits its lines goes on from the state they leave. -/
theorem withLines_ok {xs : List Transaction} {s t : State} {k : State → CallAnswer}
    (h : performAll xs s = .next t) : withLines (.ok xs) s k = k t := by
  simp [withLines, h]

theorem callEncrypt_of_le {c : Config} {P K : List Byte} (hP : P.length ≤ c.dcap) (hK : K.length ≤ c.kcap) :
    callEncrypt c P K = .ok (scriptData P ++ scriptKeys K ++ scriptEnc ++ [.regRead 1]) := by
  simp [callEncrypt, requireFits, hP, hK]

theorem callDecrypt_of_le {c : Config} {C K : List Byte} (hC : C.length ≤ c.dcap + 3) (hK : K.length ≤ c.kcap) :
    callDecrypt c C K = .ok (scriptData C ++ scriptKeys K ++ scriptDec ++ [.regRead 1]) := by
  simp [callDecrypt, requireFits, hC, hK]

/-- `out` after a result of that length, with the code that belongs to it: the call returns it (R52). -/
theorem returnResult_setResult {c : ResultCode} {bs : List Byte} {s : State} (hc : bs.length ≤ capacity s.cfg .obuf)
    (hl : bs.length < 2 ^ 32) (hf : c ≠ .ok → bs = failureValue s.cfg.failPolicy) :
    returnResult (setStatus c (setResult bs s)) = .next (bs, { setStatus c (setResult bs s) with
      replies := s.replies ++ .word (setStatus c (setResult bs s)).olen :: bs.map .byte }) := by
  rw [returnResult_of_holds (bs := bs) (by simp; omega) (by simpa using hc) fun i _ => by simp]
  by_cases h : c = .ok
  · simp [h]
  · simp [h, hf h]

/-- The lines of `encrypt` and `decrypt` (R52): where the command, run on the two loaded sequences, leaves the result
`bs` and the code `c`, a call made of these lines returns `bs`; and what it leaves. -/
theorem withLines_command {s L : State} {P K bs : List Byte} {cmd : Word} {c : ResultCode}
    (hP : P.length ≤ s.cfg.dcap + 3) (hK : K.length ≤ s.cfg.kcap)
    (hL : L = { s with
      ibuf := s.ibuf.writeSeq 0 P, dlen := BitVec.ofNat 32 P.length
      kbuf := s.kbuf.writeSeq 0 K, klen := BitVec.ofNat 32 K.length })
    (hc : bs.length ≤ capacity s.cfg .obuf) (hl : bs.length < 2 ^ 32)
    (hf : c ≠ .ok → bs = failureValue s.cfg.failPolicy)
    (h : commandWrite cmd L = .next (setStatus c (setResult bs L))) :
    ∃ t, withLines (.ok (scriptData P ++ scriptKeys K ++ [.regWrite 0 cmd] ++ [.regRead 1])) s returnResult =
        .next (bs, t) ∧
      t.code = c ∧ t.ibuf.Holds P ∧ t.kbuf.Holds K ∧ t.obuf.IsExactly bs ∧
      t.replies = s.replies ++ .word (statusWord t) :: .word t.olen :: bs.map .byte := by
  have e : performAll (scriptData P ++ scriptKeys K ++ [.regWrite 0 cmd] ++ [.regRead 1]) s =
      .next (setStatus c (setResult bs
        { L with replies := s.replies ++ [.word (statusWord (setStatus c (setResult bs L)))] })) := by
    rw [List.append_assoc, List.append_assoc, performAll_append (performAll_scriptData hP),
      performAll_append (performAll_scriptKeys (by simpa using hK))]
    subst hL
    simp only [List.cons_append, List.nil_append, performAll, perform, performRegWrite, regOfNumber, h,
      performRegRead]
    rfl
  subst hL
  have r := returnResult_setResult (c := c) (bs := bs)
    (s := { s with
      ibuf := s.ibuf.writeSeq 0 P, dlen := BitVec.ofNat 32 P.length
      kbuf := s.kbuf.writeSeq 0 K, klen := BitVec.ofNat 32 K.length
      replies := s.replies ++ [.word (statusWord (setStatus c (setResult bs s)))] }) hc hl hf
  exact ⟨_, (withLines_ok e).trans r, rfl, Memory.holds_writeSeq _ _, Memory.holds_writeSeq _ _, fun j => by simp,
    by simp [statusWord]⟩

end Sys2Proof.Machine
end

