-- ==== Sys2Proof/Tests/Slice0.lean ====
section
/-! SUPPORT. Tests. Expected values are the spec's own test vectors (spec/95_test_vectors.md; the id stands in each
comment) or the words of its encoding table; the witness theorems show that the hypotheses of each statement of
Certificates/Slice0/Obligations.lean can be met together. -/

namespace Sys2Proof.Tests
open Sys2Proof Sys2Proof.Machine

/-- An instance of the size the spec's vectors ask for (at least 16), with KGEN. -/
def cfg16 : Config := { dcap := 16, kcap := 16, failPolicy := .empty, hasKgen := true, keyMin := 0 }

/-- A small instance, for the boundaries of the capacities. -/
def cfg4 : Config := { cfg16 with dcap := 4, kcap := 4 }

/-- `reset`, `data d`, `keys k` (R51), with the writes done. -/
def loaded (c : Config) (d k : List Byte) : State :=
  { State.resetOf c with
    ibuf := Memory.ofSeq 0 d, dlen := BitVec.ofNat 32 d.length
    kbuf := Memory.ofSeq 0 k, klen := BitVec.ofNat 32 k.length }

/-- `s` with one transaction pending. -/
def pend (x : Transaction) (s : State) : State := { s with pending := [x] }

/-- Does the outcome leave this result: STATUS, OLEN and the written cells of OBUF. -/
def leaves (o : Answer) (status : Word) (out : List Byte) : Bool :=
  match o with
  | .next t => statusWord t == status && t.olen == BitVec.ofNat 32 out.length && t.obuf == Memory.ofSeq 0 out
  | .fault _ => false
  | .refused _ => false

/-- Does the call return this sequence, and leave this STATUS. -/
def returns (o : CallAnswer) (status : Word) (bs : List Byte) : Bool :=
  match o with
  | .next (x, t) => x == bs && statusWord t == status
  | .fault _ => false
  | .refused _ => false

/-- Is the call refused because a sequence is too long. -/
def tooLong (o : CallAnswer) (length limit : Nat) : Bool :=
  match o with
  | .next _ => false
  | .fault _ => false
  | .refused r => r == .sequenceTooLong length limit

/-! ## Well-formedness -/

/-- R44: KGEN does not exist where `HAS_KGEN` is false; this is the only check a command can fail. -/
theorem test_wf_refuses_kgen_where_absent : Instr.wf { cfg16 with hasKgen := false } .kgen = false := by decide

/-- R5: parameters outside the constraints are refused, one term for each check. -/
theorem test_valid_refuses_parameters :
    ¬ Config.Valid { cfg16 with dcap := 0 } ∧ ¬ Config.Valid { cfg16 with kcap := 0 } ∧
    ¬ Config.Valid { cfg16 with dcap := 4294967293 } ∧ ¬ Config.Valid { cfg16 with kcap := 4294967296 } ∧
    Config.Valid Config.standard ∧ Config.Valid cfg16 ∧ Config.Valid cfg4 := by decide

/-- A list that is not rising is not in canonical form. -/
theorem test_memory_wf_refuses : ¬ Memory.wf [(1, 0), (0, 0)] ∧ ¬ Memory.wf [(1, 0), (1, 0)] := by decide

/-! ## Decoding -/

/-- W4 to W9: reserved words. -/
theorem test_reserved_words :
    decode cfg16 0x00000000 = .error .unassignedOp ∧ decode cfg16 0x00000004 = .error .unassignedOp ∧
    decode cfg16 0x000000FF = .error .unassignedOp ∧ decode cfg16 0x00000101 = .error .zeroField ∧
    decode cfg16 0x80000001 = .error .zeroField ∧ decode cfg16 0xFFFFFFFF = .error .zeroField := by decide

/-- W3: the word 3 is reserved where KGEN is absent. -/
theorem test_word_three_needs_kgen :
    decode { cfg16 with hasKgen := false } 0b000000000000000000000000_00000011 = .error .kgenAbsent := by decide

/-- The rows of the table as the host numbers them, and a number too long for a command word. -/
theorem test_table_words :
    decodeTableWord 32 1 = some .enc ∧ decodeTableWord 32 2 = some .dec ∧ decodeTableWord 32 3 = some .kgen ∧
    decodeTableWord 64 4294967297 = none := by decide

/-! ## The units -/

/-- K6, K8, K9, K12, K13, K14: EKD on both paths and beside the boundary. -/
theorem test_ekd :
    ekd 3 [0x01, 0x02, 0x03, 0x04] = some [0x05, 0x02, 0x03] ∧
    ekd 3 [0x01, 0x02, 0x03, 0x04, 0x05, 0x06, 0x07] = some [0x02, 0x07, 0x05] ∧
    ekd 4 [0xFF, 0xFF, 0xFF, 0xFF, 0xFF, 0xFF, 0xFF, 0xFF] = some [0, 0, 0, 0] ∧
    ekd 7 [0x10, 0x20, 0x30] = some [0x10, 0x20, 0x30, 0x10, 0x20, 0x30, 0x10] ∧
    ekd 5 [0x11, 0x22, 0x33, 0x44] = some [0x11, 0x22, 0x33, 0x44, 0x11] ∧
    ekd 5 [0x11, 0x22, 0x33, 0x44, 0x55, 0x66] = some [0x77, 0x22, 0x33, 0x44, 0x55] := by decide

/-- X1, B2, T1, T4, T8, T9. -/
theorem test_xmask_brev_sigt :
    xmask [0x48, 0x65, 0x6C, 0x6C, 0x6F] [1, 2, 3, 1, 2] = [0x49, 0x67, 0x6F, 0x6D, 0x6D] ∧
    brev [0x21, 0x52, 0x41, 0x10] = [0x10, 0x41, 0x52, 0x21] ∧
    sigtAppend [0x6D, 0x6D, 0x6F, 0x67, 0x49] = [0x6D, 0x6D, 0x6F, 0x67, 0x49, 0x3B, 0x2D, 0x29] ∧
    sigtValidate [0x41, 0x29, 0x2D, 0x3B] = false ∧ sigtValidate [0x3B, 0x2D, 0x29, 0x00] = false ∧
    sigtValidate [0x3B, 0x2D, 0x29, 0x3B, 0x2D, 0x29] = true := by decide

/-! ## The commands -/

/-- E1: the source's example, repeat path. -/
theorem test_enc_hello :
    leaves (exec .enc (loaded cfg16 [0x48, 0x65, 0x6C, 0x6C, 0x6F] [0x01, 0x02, 0x03])) 0x10
      [0x6D, 0x6D, 0x6F, 0x67, 0x49, 0x3B, 0x2D, 0x29] = true := by decide

/-- E12: accumulate path, three keys in position 0. -/
theorem test_enc_accumulate :
    leaves (exec .enc (loaded cfg16 [0xFF, 0x00, 0x80] [0x01, 0x02, 0x03, 0x10, 0x20, 0x30, 0x80])) 0x10
      [0xB3, 0x22, 0x6E, 0x3B, 0x2D, 0x29] = true := by decide

/-- D8: the path is chosen by the payload length 5, not by the ciphertext length 8. -/
theorem test_dec_path_by_payload :
    leaves (exec .dec (loaded cfg16 [0x6D, 0x6D, 0x6F, 0x67, 0x49, 0x3B, 0x2D, 0x29] [0x01, 0x02, 0x03, 0x01, 0x02]))
      0x10 [0x48, 0x65, 0x6C, 0x6C, 0x6F] = true := by decide

/-- D22 and D12 under `FAIL_POLICY = MARKER`: keys before signature, length before signature, the marker left. -/
theorem test_dec_failures_marker :
    leaves (exec .dec (loaded { cfg16 with failPolicy := .marker } [0x41, 0x3B, 0x2D, 0x28] [])) 0x12
      [0x46, 0x41, 0x54, 0x41, 0x4C, 0x20, 0x45, 0x52, 0x52, 0x4F, 0x52] = true ∧
    leaves (exec .dec (loaded { cfg16 with failPolicy := .marker } [0x3B, 0x2D, 0x29] [0x01])) 0x13
      [0x46, 0x41, 0x54, 0x41, 0x4C, 0x20, 0x45, 0x52, 0x52, 0x4F, 0x52] = true := by decide

/-- G1 and G3: the supplied draws in index order; a cell beyond the count keeps its content. -/
theorem test_kgen_draws :
    (match exec .kgen { loaded cfg16 [] [1, 2, 3, 4] with klen := 3, draws := [0xA7, 0x00, 0x5C] } with
     | .next t => t.kbuf == Memory.ofSeq 0 [0xA7, 0x00, 0x5C, 4] && statusWord t == 0x10
     | _ => false) = true := by decide

/-- G4: `KLEN = 5` on an instance with `KCAP = 4`. -/
theorem test_kgen_above_capacity :
    leaves (exec .kgen { loaded cfg4 [] [1] with klen := 5 }) 0x16 [] = true := by decide

/-! ## Host transactions -/

/-- W4 and G6: a reserved word, and the word 3 on an instance without KGEN, give STATUS 0x15. -/
theorem test_step_reserved :
    leaves (step (pend (.regWrite 0 0) (loaded cfg16 [1] [1]))) 0x15 [] = true ∧
    leaves (step (pend (.regWrite 0 3) (loaded { cfg16 with hasKgen := false } [1] [1]))) 0x15 [] = true := by decide

/-- S4 and S5: DLEN stores any value, a write of STATUS is ignored. -/
theorem test_register_writes :
    (step (pend (.regWrite 2 0xFFFFFFFF) State.reset) matches .next { dlen := 0xFFFFFFFF, .. }) = true ∧
    (step (pend (.regWrite 1 0x1F) State.reset) matches .next { done := false, code := .ok, .. }) = true := by decide

/-- The three rows of the table run as the first command after reset (R100). -/
theorem test_first_command_after_reset :
    leaves (step (State.reset.withFetchWord 32 1)) 0x11 [] = true ∧
    leaves (step (State.reset.withFetchWord 32 2)) 0x12 [] = true ∧
    leaves (step (State.reset.withFetchWord 32 3)) 0x10 [] = true := by decide

/-- Two lines of the listing of program 1 of the vectors (R50). -/
theorem test_listing_lines :
    scriptListing (.bufWrite .ibuf 2 0x6C) = "WB IBUF 2 6C" ∧ scriptListing (.regWrite 2 5) = "W 2 00000005" := by
  decide

/-! ## Source calls -/

/-- E1 and its inverse as source calls (R52), on an instance that has other things in it. -/
theorem test_source_calls_hello :
    returns (sourceEncrypt [0x48, 0x65, 0x6C, 0x6C, 0x6F] [0x01, 0x02, 0x03] (loaded cfg16 [9, 9] [9])) 0x10
      [0x6D, 0x6D, 0x6F, 0x67, 0x49, 0x3B, 0x2D, 0x29] = true ∧
    returns (sourceDecrypt [0x6D, 0x6D, 0x6F, 0x67, 0x49, 0x3B, 0x2D, 0x29] [0x01, 0x02, 0x03]
      (loaded cfg16 [9, 9] [9])) 0x10 [0x48, 0x65, 0x6C, 0x6C, 0x6F] = true := by decide

/-- D12 and D22 as source calls: the failure value of each policy is returned. -/
theorem test_source_calls_fail :
    returns (sourceDecrypt [0x3B, 0x2D, 0x29] [0x01] (State.resetOf cfg16)) 0x13 [] = true ∧
    returns (sourceDecrypt [0x41, 0x3B, 0x2D, 0x28] [] (State.resetOf { cfg16 with failPolicy := .marker })) 0x12
      [0x46, 0x41, 0x54, 0x41, 0x4C, 0x20, 0x45, 0x52, 0x52, 0x4F, 0x52] = true := by decide

/-- G1 as a source call. -/
theorem test_source_generate_keys :
    returns (sourceGenerateKeys 3 { State.resetOf cfg16 with draws := [0xA7, 0x00, 0x5C] }) 0x10
      [0xA7, 0x00, 0x5C] = true := by decide

/-! ## Witnesses: the hypotheses of the statements can be met -/

theorem witness_DecodeIsTheMatchOnTheWholeWord :
    Instr.wf cfg16 .kgen = true ∧ Instr.wf { cfg16 with hasKgen := false } .enc = true := by decide

theorem witness_StepRunsTheDecodedCommand :
    (pend (.regWrite 0 2) State.reset).pending = .regWrite 0 2 :: [] ∧ decode State.reset.cfg 2 = .ok .dec ∧
    Instr.wf State.reset.cfg .kgen = true := by decide

theorem witness_ReservedWordsFail :
    ((0x00 : Word) ≠ 0x01 ∧ (0x00 : Word) ≠ 0x02 ∧ ¬ ((0x00 : Word) = 0x03 ∧ cfg16.hasKgen = true)) ∧
    ((0x04 : Word) ≠ 0x01 ∧ (0x04 : Word) ≠ 0x02 ∧ ¬ ((0x04 : Word) = 0x03 ∧ cfg16.hasKgen = true)) ∧
    ((0x103 : Word) ≠ 0x01 ∧ (0x103 : Word) ≠ 0x02 ∧ ¬ ((0x103 : Word) = 0x03 ∧ cfg16.hasKgen = true)) ∧
    ¬ ((0x03 : Word) = 0x03 ∧ ({ cfg16 with hasKgen := false } : Config).hasKgen = true) := by decide

/-- The least lengths and the greatest ones of the small instance. -/
theorem witness_EncClosedForm :
    ∀ dk ∈ [([0x41], [0x01]), ([0xDE, 0xAD, 0xBE, 0xEF], [1, 2, 3, 4]), ([0x41], [1, 2, 3, 4])],
      let s := loaded cfg4 dk.1 dk.2
      s.cfg.Valid ∧ 1 ≤ s.dlen.toNat ∧ s.dlen.toNat ≤ s.cfg.dcap ∧ 1 ≤ s.klen.toNat ∧ s.klen.toNat ≤ s.cfg.kcap ∧
      s.ibuf.Written s.dlen.toNat ∧ dk.2.length = s.klen.toNat ∧ s.kbuf.Holds dk.2 := by decide

/-- E18, E19, E17, E16: each branch of the order of failures is reached. -/
theorem witness_EncFailsInOrder :
    leaves (exec .enc (loaded cfg4 [1, 2, 3, 4, 5] [1])) 0x16 [] = true ∧
    leaves (exec .enc (loaded cfg4 [] [1, 2, 3, 4, 5])) 0x16 [] = true ∧
    leaves (exec .enc (loaded cfg4 [] [])) 0x11 [] = true ∧
    leaves (exec .enc (loaded cfg4 [0x41] [])) 0x12 [] = true := by decide

theorem witness_EncStopsAtAnUnwrittenCell :
    (let s := { loaded cfg4 [1, 2] [1] with dlen := 4 }
     1 ≤ s.dlen.toNat ∧ s.dlen.toNat ≤ s.cfg.dcap ∧ 1 ≤ s.klen.toNat ∧ s.klen.toNat ≤ s.cfg.kcap ∧
     2 < s.dlen.toNat ∧ s.ibuf.read 2 = none ∧ s.ibuf.Written 2) ∧
    (let s := { loaded cfg4 [1, 2] [] with klen := 1 }
     1 ≤ s.dlen.toNat ∧ s.dlen.toNat ≤ s.cfg.dcap ∧ 1 ≤ s.klen.toNat ∧ s.klen.toNat ≤ s.cfg.kcap ∧
     s.ibuf.Written s.dlen.toNat ∧ 0 < s.klen.toNat ∧ s.kbuf.read 0 = none ∧ s.kbuf.Written 0) := by decide

/-- D4 and D24: the least and the greatest ciphertext of the small instance. -/
theorem witness_DecClosedForm :
    ∀ ck ∈ [([0x41, 0x3B, 0x2D, 0x29], [0x01]),
        ([0x10, 0x41, 0x52, 0x21, 0x3B, 0x2D, 0x29], [0xFF, 0xFF, 0xFF, 0xFF])],
      let s := loaded cfg4 ck.1 ck.2
      s.cfg.Valid ∧ 4 ≤ s.dlen.toNat ∧ s.dlen.toNat ≤ s.cfg.dcap + 3 ∧ 1 ≤ s.klen.toNat ∧
      s.klen.toNat ≤ s.cfg.kcap ∧ s.ibuf.Written s.dlen.toNat ∧ SignatureAt s s.dlen.toNat ∧
      ck.2.length = s.klen.toNat ∧ s.kbuf.Holds ck.2 := by decide

/-- D23, D16, D13, D12, D17: each branch of the order of failures is reached, at the boundary lengths 3 and 4. -/
theorem witness_DecFailsInOrder :
    leaves (exec .dec (loaded cfg4 [1, 2, 3, 4, 5, 6, 7, 8] [1])) 0x16 [] = true ∧
    leaves (exec .dec (loaded cfg4 [0x41, 0x3B] [])) 0x12 [] = true ∧
    leaves (exec .dec (loaded cfg4 [] [1])) 0x13 [] = true ∧
    leaves (exec .dec (loaded cfg4 [0x3B, 0x2D, 0x29] [1])) 0x13 [] = true ∧
    (let s := { loaded cfg4 [0x41, 0x29, 0x2D, 0x3B] [] with klen := 1 }
     s.ibuf.Written s.dlen.toNat ∧ ¬ SignatureAt s s.dlen.toNat ∧ leaves (exec .dec s) 0x14 [] = true) := by decide

theorem witness_DecStopsAtAnUnwrittenCell :
    (let s := { loaded cfg4 [1, 2] [1] with dlen := 4 }
     4 ≤ s.dlen.toNat ∧ s.dlen.toNat ≤ s.cfg.dcap + 3 ∧ 1 ≤ s.klen.toNat ∧ s.klen.toNat ≤ s.cfg.kcap ∧
     2 < s.dlen.toNat ∧ s.ibuf.read 2 = none ∧ s.ibuf.Written 2) ∧
    (let s := { loaded cfg4 [1, 0x3B, 0x2D, 0x29] [1] with klen := 2 }
     4 ≤ s.dlen.toNat ∧ s.dlen.toNat ≤ s.cfg.dcap + 3 ∧ 1 ≤ s.klen.toNat ∧ s.klen.toNat ≤ s.cfg.kcap ∧
     s.ibuf.Written s.dlen.toNat ∧ SignatureAt s s.dlen.toNat ∧ 1 < s.klen.toNat ∧ s.kbuf.read 1 = none ∧
     s.kbuf.Written 1) := by decide

/-- The counts 0 and `KCAP`, and a supplied draw within the range under each `KEY_MIN`. -/
theorem witness_KgenDrawsTheKeys :
    (let s := { loaded cfg4 [] [] with klen := 0 }
     s.cfg.hasKgen = true ∧ s.klen.toNat ≤ s.cfg.kcap) ∧
    (let s := { loaded cfg4 [] [] with klen := 4, draws := [0x00] }
     s.cfg.hasKgen = true ∧ s.klen.toNat ≤ s.cfg.kcap ∧ s.draws[0]? = some 0x00 ∧
     s.cfg.keyMin.val ≤ (0x00 : Byte).toNat) ∧
    (let s := { loaded { cfg4 with keyMin := 1 } [] [] with klen := 4, draws := [0x01] }
     s.cfg.hasKgen = true ∧ s.klen.toNat ≤ s.cfg.kcap ∧ s.draws[0]? = some 0x01 ∧
     s.cfg.keyMin.val ≤ (0x01 : Byte).toNat) := by decide

theorem witness_KgenFails :
    (let s := { loaded cfg4 [] [] with klen := 5 }
     s.cfg.hasKgen = true ∧ s.klen.toNat > s.cfg.kcap) ∧
    (loaded { cfg4 with hasKgen := false } [] []).cfg.hasKgen = false := by decide

/-- A KGEN that succeeds and one that fails. -/
theorem witness_KgenFrame :
    (∃ t, exec .kgen { loaded cfg4 [] [7] with draws := [9] } = .next t ∧ t.code = .ok) ∧
    (∃ t, exec .kgen { loaded cfg4 [] [7] with klen := 5 } = .next t ∧ t.code ≠ .ok) :=
  ⟨⟨_, rfl, rfl⟩, ⟨_, rfl, by decide⟩⟩

theorem witness_EncRunsOnGeneratedKeys :
    let s := { loaded cfg4 [0x48, 0x69] [7] with draws := [9] }
    (∃ t, exec .kgen s = .next t ∧ t.code = .ok) ∧ 1 ≤ s.klen.toNat ∧
      ([0x48, 0x69] : List Byte).length = s.dlen.toNat ∧ 1 ≤ ([0x48, 0x69] : List Byte).length ∧
      ([0x48, 0x69] : List Byte).length ≤ s.cfg.dcap ∧ s.ibuf.Holds [0x48, 0x69] :=
  ⟨⟨_, rfl, rfl⟩, by decide⟩

theorem witness_CodesOfEachCommand :
    (∃ t, exec .enc (loaded cfg4 [1] [2]) = .next t) ∧
    (∃ t, exec .dec (loaded cfg4 [1, 0x3B, 0x2D, 0x29] [2]) = .next t) ∧
    (loaded cfg4 [1] [2]).cfg.hasKgen = true ∧ (∃ t, exec .kgen (State.resetOf cfg4) = .next t) :=
  ⟨⟨_, rfl⟩, ⟨_, rfl⟩, rfl, ⟨_, rfl⟩⟩

/-- A failure of each command. -/
theorem witness_EveryFailureIsTheFailureProcedure :
    (∃ t, exec .enc (loaded cfg4 [] [2]) = .next t ∧ t.code ≠ .ok) ∧
    (∃ t, exec .dec (loaded cfg4 [1, 2, 3, 4] [2]) = .next t ∧ t.code ≠ .ok) ∧
    (∃ t, exec .kgen { loaded cfg4 [] [] with klen := 5 } = .next t ∧ t.code ≠ .ok) :=
  ⟨⟨_, rfl, by decide⟩, ⟨_, rfl, by decide⟩, ⟨_, rfl, by decide⟩⟩

theorem witness_EncAndDecPreserveInputs :
    (∃ t, exec .enc (loaded cfg4 [1] [2]) = .next t ∧ t.code = .ok) ∧
    (∃ t, exec .dec (loaded cfg4 [1, 2, 3, 4] [2]) = .next t ∧ t.code ≠ .ok) :=
  ⟨⟨_, rfl, rfl⟩, ⟨_, rfl, by decide⟩⟩

/-- Two states that differ in everything the results do not depend on. -/
theorem witness_ResultsDependOnOperandsOnly :
    let s₁ := loaded cfg4 [1] [2]
    let s₂ := { loaded cfg4 [1, 9] [2, 9] with dlen := 1, klen := 1, olen := 7, done := true, obuf := [(0, 5)] }
    s₁.cfg = s₂.cfg ∧ s₁.klen = s₂.klen ∧ s₁.dlen = s₂.dlen ∧
      (∀ k, k < s₁.dlen.toNat → s₁.ibuf.read k = s₂.ibuf.read k) ∧
      (∀ k, k < s₁.klen.toNat → s₁.kbuf.read k = s₂.kbuf.read k) ∧ s₁.draws = s₂.draws ∧ s₁.fresh = s₂.fresh ∧
      (leaves (exec .enc s₁) 0x10 [3, 0x3B, 0x2D, 0x29] = true) ∧
      (exec .kgen { s₁ with draws := [5] } matches .next { code := .ok, .. }) = true := by decide

theorem witness_EmptyResultMeansFailure :
    (loaded cfg4 [1] [2]).cfg.Valid ∧ (loaded cfg4 [1] [2]).cfg.failPolicy = .empty ∧
    leaves (exec .enc (loaded cfg4 [1] [2])) 0x10 [3, 0x3B, 0x2D, 0x29] = true ∧
    leaves (exec .dec (loaded cfg4 [1] [2])) 0x13 [] = true := by decide

theorem witness_MarkerIsNoCiphertext :
    let c : Config := { cfg4 with failPolicy := .marker }
    (loaded c [1] [2]).cfg.failPolicy = .marker ∧
    leaves (exec .enc (loaded c [1] [2])) 0x10 [3, 0x3B, 0x2D, 0x29] = true ∧
    leaves (exec .enc (loaded c [] [2])) 0x11 MARKER = true := by decide

/-- Lengths on each side of the boundary, at it, and between one and two data lengths. -/
theorem witness_EffectiveKeyClosedForm :
    (0 < 2 ∧ [(1 : Byte)].length < 2 ∧ 0 < [(1 : Byte)].length) ∧ [(1 : Byte), 2].length = 2 ∧
    (2 < [(1 : Byte), 2, 3].length ∧ [(1 : Byte), 2, 3].length < 2 * 2) ∧
    ekd 2 [1] = some [1, 1] ∧ ekd 2 [1, 2] = some [1, 2] ∧ ekd 2 [1, 2, 3] = some [2, 2] := by decide

theorem witness_SignatureCheckIsTheLastThreeBytes :
    4 ≤ ([0x41, 0x3B, 0x2D, 0x29] : List Byte).length ∧ sigtValidate [0x41, 0x3B, 0x2D, 0x29] = true ∧
    sigtValidate [0x41, 0x3A, 0x2D, 0x29] = false := by decide

theorem witness_LawsOfTheUnits :
    ([1, 2] : List Byte).length = ([3, 4] : List Byte).length ∧ 1 ≤ ([1, 2] : List Byte).length ∧
    ekd 2 [3, 4] = some [3, 4] := by decide

theorem witness_EncryptAndDecryptAreInverse :
    1 ≤ ([1] : List Byte).length ∧ 4 ≤ ([1, 0x3B, 0x2D, 0x29] : List Byte).length ∧
    sigtValidate [1, 0x3B, 0x2D, 0x29] = true := by decide

theorem witness_TrailingZeroKeyIsInvisible :
    1 ≤ ([1] : List Byte).length ∧ ([1] : List Byte).length ≤ ([2] : List Byte).length := by decide

theorem witness_DecInvertsEnc :
    let s := loaded cfg4 [1] [2]
    let u := loaded cfg4 [3, 0x3B, 0x2D, 0x29] [2]
    s.cfg.Valid ∧ ([1] : List Byte).length = s.dlen.toNat ∧ s.ibuf.Holds [1] ∧
      (match exec .enc s with
       | .next t => decide (t.code = .ok ∧ u.cfg = t.cfg ∧ u.klen = t.klen ∧ u.kbuf = t.kbuf ∧ u.dlen = t.olen ∧
           ∀ j, j < t.olen.toNat → u.ibuf.read j = t.obuf.read j)
       | _ => false) = true := by decide

theorem witness_SourceCallEncrypts :
    let s := { State.resetOf cfg4 with
      pending := scriptData [1, 2, 3, 4] ++ scriptKeys [5, 6, 7, 8] ++ scriptEnc ++ [Transaction.regRead 1] }
    s.cfg.Valid ∧ 1 ≤ ([1, 2, 3, 4] : List Byte).length ∧ ([1, 2, 3, 4] : List Byte).length ≤ s.cfg.dcap ∧
      ([5, 6, 7, 8] : List Byte).length ≤ s.cfg.kcap := by decide

/-- The last cell of each space; a read of a written cell and of an unwritten one. -/
theorem witness_HostByteTransactions :
    6 < capacity cfg4 .ibuf ∧ 3 < capacity cfg4 .kbuf ∧ 6 < capacity cfg4 .obuf ∧
    (pend (.bufWrite .ibuf 6 1) (State.resetOf cfg4)).pending = .bufWrite .ibuf 6 1 :: [] ∧
    (pend (.bufWrite .obuf 6 1) (State.resetOf cfg4)).pending = .bufWrite .obuf 6 1 :: [] ∧
    (pend (.bufRead .ibuf 0) (loaded cfg4 [5] [])).pending = .bufRead .ibuf 0 :: [] ∧
    (buffer (loaded cfg4 [5] []) .ibuf).read 0 = some 5 ∧ (buffer (loaded cfg4 [5] []) .ibuf).read 1 = none := by
  decide

theorem witness_HostWritesAreIdempotent :
    (∃ t, perform (.bufWrite .ibuf 6 1) (State.resetOf cfg4) = .next t) ∧
    (∃ t, perform (.regWrite 2 9) (State.resetOf cfg4) = .next t) ∧
    (∃ t, perform (.regWrite 3 9) (State.resetOf cfg4) = .next t) := ⟨⟨_, rfl⟩, ⟨_, rfl⟩, ⟨_, rfl⟩⟩

theorem witness_HostRegisterTransactions :
    (∀ r ∈ [0, 1, 2, 3, 4],
      (pend (.regWrite r 9) (loaded cfg4 [5] [])).pending = [Transaction.regWrite r 9]) ∧
    (∀ r ∈ [0, 1, 2, 3, 4],
      (pend (.regRead r) (loaded cfg4 [5] [])).pending = [Transaction.regRead r]) := by decide

/-- The last name in range and the first beyond it, for registers and for cells. -/
theorem witness_OnlyNamelessTransactionsAreRefused :
    NamesSomething cfg4 (.regRead 4) ∧ ¬ NamesSomething cfg4 (.regRead 5) ∧
    NamesSomething cfg4 (.bufWrite .kbuf 3 0) ∧ ¬ NamesSomething cfg4 (.bufWrite .kbuf 4 0) ∧
    NamesSomething { cfg4 with failPolicy := .marker } (.bufRead .obuf 10) ∧
    ¬ NamesSomething cfg4 (.bufRead .obuf 7) := by decide

theorem witness_ResetTransaction :
    (pend .reset (loaded cfg4 [5] [6])).pending = .reset :: [] := by decide

theorem witness_CommandsStraightAfterReset : cfg4.hasKgen = true := by decide

/-- A step with nothing pending and one with a read pending. -/
theorem witness_TransactionsTakeEffectInOrder :
    (∃ t, step (pend (.regRead 1) State.reset) = .next t) ∧ State.reset.pending = [] := ⟨⟨_, rfl⟩, rfl⟩

theorem witness_OnlyCommandsChangeTheResult :
    (∃ t, step (pend (.bufWrite .ibuf 0 1) State.reset) = .next t) ∧
    (∀ v rest, (pend (.bufWrite .ibuf 0 1) State.reset).pending ≠ .regWrite 0 v :: rest) ∧
    (∀ rest, (pend (.bufWrite .ibuf 0 1) State.reset).pending ≠ .reset :: rest) :=
  ⟨⟨_, rfl⟩, fun _ _ => by simp [pend], fun _ => by simp [pend]⟩

/-- A command on a state with DONE set. -/
theorem witness_OnlyResetClearsDone :
    let s := pend (.regWrite 0 1) { State.reset with done := true }
    (∃ t, step s = .next t) ∧ (∀ rest, s.pending ≠ .reset :: rest) ∧ s.done = true ∧
      s.pending = .regWrite 0 1 :: [] := ⟨⟨_, rfl⟩, fun _ => by simp [pend], rfl, rfl⟩

theorem witness_ParametersNeverChange : ∃ t, step (pend .reset State.reset) = .next t := ⟨_, rfl⟩

/-- A state of the invariant with written buffers and a result, from which a step goes on. -/
theorem witness_EveryStepKeepsTheInvariant :
    ∃ s t, Inv s ∧ s.ibuf ≠ [] ∧ s.obuf ≠ [] ∧ s.done = true ∧ step s = .next t ∧ t.code = .ok := by
  refine ⟨pend (.regWrite 0 1) { loaded cfg4 [1] [2] with
    done := true, olen := 1, obuf := [(0, 9)] }, _, ?_, by decide, by decide, rfl, rfl, rfl⟩
  refine ⟨by decide, by decide, by decide, by decide, by decide, by decide, by decide, fun i => ?_, by decide⟩
  show ((if (0 : Nat) = i then some (9 : Byte) else none).isSome = true) ↔ i < 1
  split <;> simp <;> omega

/-- U4: the greatest sequences that fit (E18 has one byte more, which the call refuses), each sequence empty, and both. -/
theorem witness_SourceEncryptReturns :
    let s := State.resetOf cfg4
    s.cfg.Valid ∧ tooLong (sourceEncrypt [1, 2, 3, 4, 5] [1] s) 5 4 = true ∧
    tooLong (sourceEncrypt [1] [1, 2, 3, 4, 5] s) 5 4 = true ∧
    returns (sourceEncrypt [1, 2, 3, 4] [1, 2, 3, 4] s) 0x10 [0, 0, 0, 0, 0x3B, 0x2D, 0x29] = true ∧
    returns (sourceEncrypt [] [1] s) 0x11 [] = true ∧ returns (sourceEncrypt [] [] s) 0x11 [] = true ∧
    returns (sourceEncrypt [0x41] [] s) 0x12 [] = true := by decide

/-- U4: the greatest ciphertext that fits and one byte more, and each failure at the boundary lengths 3 and 4. -/
theorem witness_SourceDecryptReturns :
    let s := State.resetOf cfg4
    s.cfg.Valid ∧ tooLong (sourceDecrypt [1, 2, 3, 4, 5, 6, 7, 8] [1] s) 8 7 = true ∧
    tooLong (sourceDecrypt [1] [1, 2, 3, 4, 5] s) 5 4 = true ∧
    returns (sourceDecrypt [0, 0, 0, 0, 0x3B, 0x2D, 0x29] [1, 2, 3, 4] s) 0x10 [1, 2, 3, 4] = true ∧
    returns (sourceDecrypt [0x41, 0x3B] [] s) 0x12 [] = true ∧
    returns (sourceDecrypt [0x3B, 0x2D, 0x29] [1] s) 0x13 [] = true ∧
    returns (sourceDecrypt [0x41, 0x29, 0x2D, 0x3B] [1] s) 0x14 [] = true := by decide

/-- The counts 0, `KCAP` and one more; a supplied draw within the range. -/
theorem witness_SourceGenerateKeysReturns :
    let s := { State.resetOf cfg4 with draws := [5, 6, 7, 8] }
    s.cfg.Valid ∧ s.cfg.hasKgen = true ∧ returns (sourceGenerateKeys 0 s) 0x10 [] = true ∧
    returns (sourceGenerateKeys 4 s) 0x10 [5, 6, 7, 8] = true ∧ tooLong (sourceGenerateKeys 5 s) 5 4 = true ∧
    s.draws[0]? = some 5 ∧ s.cfg.keyMin.val ≤ (5 : Byte).toNat := by decide

theorem witness_SourceCallsRoundTrip :
    let s := State.resetOf cfg4
    let s' := loaded cfg4 [1] [2]
    s.cfg.Valid ∧ s'.cfg = s.cfg ∧ 1 ≤ ([1, 2, 3, 4] : List Byte).length ∧
      ([1, 2, 3, 4] : List Byte).length ≤ s.cfg.dcap ∧ ([5, 6, 7, 8] : List Byte).length ≤ s.cfg.kcap := by decide

/-- The lines of a call, with a transaction already pending behind them. -/
theorem witness_LinesRunAsSteps :
    ∃ t, performAll (scriptData [1] ++ scriptEnc ++ [.regRead 1]) (pend (.regRead 4) (State.resetOf cfg4)) = .next t :=
  ⟨_, rfl⟩

theorem witness_InvariantAfterReset : cfg4.Valid ∧ Config.standard.Valid := by decide

end Sys2Proof.Tests
end

namespace Sys2Proof.Machine

/-- A command that completes keeps the instance parameters, whether it fails, leaves a result or draws keys (R5). -/
theorem exec_next_cfg {i : Instr} {s t : State} (h : exec i s = .next t) : t.cfg = s.cfg := by
  rcases exec_next_cases h with ⟨c, -, rfl⟩ | ⟨-, bs, -, -, rfl⟩ | ⟨-, -, f, rfl⟩
  · exact raiseFail_cfg c s
  · exact finish_cfg bs s
  · exact setStatus_cfg .ok _

/-- A transaction that completes keeps the instance parameters (R5). -/
theorem perform_next_cfg {x : Transaction} {s t : State} (h : perform x s = .next t) : t.cfg = s.cfg := by
  rcases perform_next_cases h with ⟨r, reg, -, -, rfl⟩ | ⟨r, reg, v, -, -, -, rfl⟩ | ⟨v, i, -, -, he⟩ |
    ⟨v, e, -, -, rfl⟩ | ⟨sp, i, b, f, -, -, rfl, -⟩ | ⟨sp, i, b, -, -, rfl⟩ | ⟨-, rfl⟩
  · exact pushReply_cfg _ s
  · exact storeReg_cfg reg v s
  · exact exec_next_cfg he
  · exact raiseFail_cfg .errIllcmd s
  · exact pushReply_cfg _ _
  · exact storeByte_cfg sp i b s
  · exact applyReset_cfg s

/-- Settles O40: an idle step keeps the whole state, and any other step performs one transaction, which keeps the
instance parameters. -/
theorem parametersNeverChange : Obligations.ParametersNeverChange := by
  intro s t h
  rcases step_next_cases h with ⟨-, rfl⟩ | ⟨x, rest, -, hx⟩
  · rfl
  · have keeps : t.cfg = ({ s with pending := rest } : State).cfg := perform_next_cfg hx
    exact keeps

end Sys2Proof.Machine

namespace Sys2Proof.Machine

/-! ### The invariant of the machine, kept by every operation, transaction and step -/

/-- The invariant does not speak of the operand lengths, nor of the model's own lists. -/
theorem Inv.set_unconstrained {s : State} (h : Inv s) (dlen klen : Word) (pending : List Transaction)
    (replies : List Reply) (draws : List Byte) (fresh : Nat) :
    Inv { s with
      dlen := dlen, klen := klen, pending := pending, replies := replies, draws := draws, fresh := fresh } :=
  { h with }

/-- The lengths OBUF can hold fit the register OLEN (R5). -/
theorem capacity_obuf_lt_of_valid {c : Config} (h : c.Valid) : capacity c .obuf < 2 ^ 32 := by
  obtain ⟨-, -, hmax⟩ := h
  unfold capacity
  cases c.failPolicy <;> dsimp only <;> omega

/-- Every plaintext and ciphertext within capacity fits OBUF, under either policy (R5, R20). -/
theorem dcap_add_three_le_capacity_obuf (c : Config) : c.dcap + 3 ≤ capacity c .obuf := by
  unfold capacity
  cases c.failPolicy
  · exact le_rfl
  · exact le_max_left _ _

/-- OLEN holds the length of a result that fits OBUF. -/
theorem toNat_olen_setResult {s : State} {bs : List Byte} (hv : s.cfg.Valid)
    (hl : bs.length ≤ capacity s.cfg .obuf) : (setResult bs s).olen.toNat = bs.length := by
  have := capacity_obuf_lt_of_valid hv
  rw [setResult_olen, BitVec.toNat_ofNat, Nat.mod_eq_of_lt (by omega)]

/-- A command that leaves STATUS and a result that fits OBUF keeps the invariant. -/
theorem Inv.setStatus_setResult {s : State} (h : Inv s) (c : ResultCode) {bs : List Byte}
    (hl : bs.length ≤ capacity s.cfg .obuf) : Inv (setStatus c (setResult bs s)) where
  cfg_valid := h.cfg_valid
  ibuf_wf := h.ibuf_wf
  kbuf_wf := h.kbuf_wf
  obuf_wf := Memory.ofSeq_wf 0 bs
  ibuf_below := h.ibuf_below
  kbuf_below := h.kbuf_below
  obuf_below := Memory.ofSeq_below bs (by simpa using hl)
  obuf_result i := by
    rw [setStatus_olen, toNat_olen_setResult h.cfg_valid hl]
    simp
  idle_status hd := by simp at hd

theorem Inv.raiseFail {s : State} (h : Inv s) (c : ResultCode) : Inv (raiseFail c s) :=
  h.setStatus_setResult c (failureValue_length_le s.cfg)

theorem Inv.finish {s : State} (h : Inv s) {bs : List Byte} (hl : bs.length ≤ s.cfg.dcap + 3) :
    Inv (finish bs s) :=
  h.setStatus_setResult .ok (hl.trans (dcap_add_three_le_capacity_obuf s.cfg))

/-- A write of STATUS by a command keeps the invariant: DONE is 1 after it. -/
theorem Inv.setStatus {s : State} (h : Inv s) (c : ResultCode) : Inv (setStatus c s) :=
  { h with idle_status := fun hd => by simp at hd }

theorem Inv.set_ibuf {s : State} (h : Inv s) {m : Memory} (hw : m.wf) (hb : m.Below (capacity s.cfg .ibuf)) :
    Inv { s with ibuf := m } :=
  { h with ibuf_wf := hw, ibuf_below := hb }

theorem Inv.set_kbuf {s : State} (h : Inv s) {m : Memory} (hw : m.wf) (hb : m.Below (capacity s.cfg .kbuf)) :
    Inv { s with kbuf := m } :=
  { h with kbuf_wf := hw, kbuf_below := hb }

/-- A sequence of keys that fits KBUF can be written there. -/
theorem Inv.writeSeq_kbuf {s : State} (h : Inv s) {bs : List Byte} (hl : bs.length ≤ s.cfg.kcap) :
    Inv { s with kbuf := s.kbuf.writeSeq 0 bs } :=
  h.set_kbuf (Memory.writeSeq_wf 0 bs h.kbuf_wf)
    (Memory.writeSeq_below bs (by simpa [capacity] using hl) h.kbuf_below)

/-- A command that completes keeps the invariant. -/
theorem Inv.exec {i : Instr} {s t : State} (h : Inv s) (he : exec i s = .next t) : Inv t := by
  rcases exec_next_cases he with ⟨c, -, rfl⟩ | ⟨-, bs, -, hl, rfl⟩ | ⟨-, hk, f, rfl⟩
  · exact h.raiseFail c
  · exact h.finish hl
  · have keys : (takeDraws s.klen.toNat s).1.length ≤ s.cfg.kcap := by simpa using hk
    exact ((h.writeSeq_kbuf keys).set_unconstrained s.dlen s.klen s.pending s.replies
      (s.draws.drop s.klen.toNat) f).setStatus .ok

theorem Inv.pushReply {s : State} (h : Inv s) (r : Reply) : Inv (pushReply r s) :=
  h.set_unconstrained s.dlen s.klen s.pending _ s.draws s.fresh

theorem Inv.storeReg {s : State} (h : Inv s) (r : Reg) (v : Word) : Inv (storeReg r v s) := by
  cases r with
  | dlen => exact h.set_unconstrained v s.klen s.pending s.replies s.draws s.fresh
  | klen => exact h.set_unconstrained s.dlen v s.pending s.replies s.draws s.fresh
  | cmd | status | olen => exact h

/-- A host write of a byte within its space keeps the invariant (R33). -/
theorem Inv.storeByte {s : State} (h : Inv s) {sp : Space} {i : Nat} (b : Byte)
    (hi : i < capacity s.cfg sp) : Inv (storeByte sp i b s) := by
  cases sp with
  | ibuf => exact h.set_ibuf (Memory.write_wf i b h.ibuf_wf) (Memory.write_below b hi h.ibuf_below)
  | kbuf => exact h.set_kbuf (Memory.write_wf i b h.kbuf_wf) (Memory.write_below b hi h.kbuf_below)
  | obuf => exact h

/-- A machine with legal parameters is in the invariant right after reset. -/
theorem inv_resetOf {c : Config} (h : c.Valid) : Inv (State.resetOf c) where
  cfg_valid := h
  ibuf_wf := List.Pairwise.nil
  kbuf_wf := List.Pairwise.nil
  obuf_wf := List.Pairwise.nil
  ibuf_below := List.forall_mem_nil _
  kbuf_below := List.forall_mem_nil _
  obuf_below := List.forall_mem_nil _
  obuf_result i := by simp [State.resetOf]
  idle_status _ := ⟨rfl, rfl⟩

/-- The reset event leaves what the machine holds right after reset, but for the model's own lists. -/
theorem Inv.applyReset {s : State} (h : Inv s) : Inv (applyReset s) :=
  (inv_resetOf h.cfg_valid).set_unconstrained 0 0 s.pending s.replies s.draws s.fresh

/-- A transaction that completes keeps the invariant. -/
theorem Inv.perform {x : Transaction} {s t : State} (h : Inv s) (hx : perform x s = .next t) : Inv t := by
  rcases perform_next_cases hx with ⟨r, reg, -, -, rfl⟩ | ⟨r, reg, v, -, -, -, rfl⟩ | ⟨v, i, -, -, he⟩ |
    ⟨v, e, -, -, rfl⟩ | ⟨sp, i, b, f, -, -, rfl, -⟩ | ⟨sp, i, b, -, hi, rfl⟩ | ⟨-, rfl⟩
  · exact h.pushReply _
  · exact h.storeReg reg v
  · exact h.exec he
  · exact h.raiseFail .errIllcmd
  · exact (h.set_unconstrained s.dlen s.klen s.pending s.replies s.draws f).pushReply _
  · exact h.storeByte b hi
  · exact h.applyReset

/-- Settles O42: an idle step keeps the state, and any other step performs one transaction, which keeps the
invariant. -/
theorem everyStepKeepsTheInvariant : Obligations.EveryStepKeepsTheInvariant := by
  intro s t h hs
  rcases step_next_cases hs with ⟨-, rfl⟩ | ⟨x, rest, -, hx⟩
  · exact h
  · exact (h.set_unconstrained s.dlen s.klen rest s.replies s.draws s.fresh).perform hx

/-- Settles O41: the parameters `State.reset` stands for are legal. -/
theorem invariantAfterReset : Obligations.InvariantAfterReset :=
  ⟨fun _ h => inv_resetOf h, inv_resetOf (by decide)⟩

/-! ### What the machine holds after reset, and the fields of STATUS -/

/-- Settles O34, register by register and space by space. -/
theorem registersAndBuffersAfterReset : Obligations.RegistersAndBuffersAfterReset := by
  intro c r sp i
  refine ⟨?_, rfl, rfl, ?_⟩
  · cases r with
    | status =>
      change (0#27 ++ BitVec.ofBool false) ++ codeNumber .ok = 0#32
      decide
    | cmd | dlen | klen | olen => rfl
  · cases sp <;> rfl

theorem codeNumber_toNat_le (c : ResultCode) : (codeNumber c).toNat ≤ 6 := by
  cases c <;> decide

/-- Bits [3:0] of STATUS are the code (R16). -/
theorem statusWord_extractLsb'_code (s : State) : (statusWord s).extractLsb' 0 4 = codeNumber s.code := by
  unfold statusWord
  cases s.done <;> cases s.code <;> decide

/-- Bits [31:4] of STATUS are DONE and zeros above it (R16). -/
theorem getLsbD_statusWord_add_four (s : State) (k : Nat) :
    (statusWord s).getLsbD (k + 4) = (decide (k = 0) && s.done) := by
  rw [statusWord, BitVec.getLsbD_append, if_neg (by omega), Nat.add_sub_cancel, BitVec.getLsbD_append]
  cases k with
  | zero => simp
  | succ k => simp

/-- Settles O36, field by field. -/
theorem fieldsOfStatus : Obligations.FieldsOfStatus := by
  intro s
  refine ⟨statusWord_extractLsb'_code s, ?_, fun k hk => ?_, codeNumber_toNat_le s.code⟩
  · simpa using getLsbD_statusWord_add_four s 0
  · obtain ⟨j, rfl⟩ := Nat.exists_eq_add_of_le' hk
    simpa using getLsbD_statusWord_add_four s (j + 1)

/-! ### Where the commands stop -/

/-- ENC past its checks reads its two operands and composes the units (R67). -/
theorem execEnc_of_checks {s : State} (hd : 1 ≤ s.dlen.toNat) (hdc : s.dlen.toNat ≤ s.cfg.dcap)
    (hk : 1 ≤ s.klen.toNat) (hkc : s.klen.toNat ≤ s.cfg.kcap) :
    execEnc s = withSeq s .ibuf s.dlen.toNat fun P =>
      withSeq s .kbuf s.klen.toNat fun K => finishWith (encrypt P K) s := by
  rw [execEnc, if_neg (by omega), if_neg (by omega), if_neg (by omega)]

/-- DEC past its checks reads the ciphertext, tests the signature and goes on to the keys (R71). -/
theorem execDec_of_checks {s : State} (hd : 4 ≤ s.dlen.toNat) (hdc : s.dlen.toNat ≤ s.cfg.dcap + 3)
    (hk : 1 ≤ s.klen.toNat) (hkc : s.klen.toNat ≤ s.cfg.kcap) :
    execDec s = withSeq s .ibuf s.dlen.toNat fun C =>
      if sigtValidate C then withSeq s .kbuf s.klen.toNat fun K => finishWith (decrypt C K) s
      else .next (raiseFail .errSig s) := by
  rw [execDec, if_neg (by omega), if_neg (by omega), if_neg (by omega)]

/-- The signature check of a ciphertext held in IBUF looks at its last three cells (R60). -/
theorem sigtValidate_iff_signatureAt {s : State} {C : List Byte} (hl : 3 ≤ C.length) (hC : s.ibuf.Holds C) :
    sigtValidate C = true ↔ SignatureAt s C.length := by
  have last : C.drop (C.length - 3) = [C[C.length - 3], C[C.length - 2], C[C.length - 1]] := by
    rw [List.drop_eq_getElem_cons (by omega), List.drop_eq_getElem_cons (by omega),
      List.drop_eq_getElem_cons (by omega), List.drop_eq_nil_of_le (by omega)]
    simp only [show C.length - 3 + 1 = C.length - 2 by omega, show C.length - 2 + 1 = C.length - 1 by omega]
  simp only [sigtValidate, last, SIG, SignatureAt, beq_iff_eq, hC (C.length - 3) (by omega),
    hC (C.length - 2) (by omega), hC (C.length - 1) (by omega)]
  simp [show C.length - 3 < C.length by omega, show C.length - 2 < C.length by omega,
    show C.length - 1 < C.length by omega]

/-- Settles O7: past its checks ENC reads the plaintext first and the keys after it. -/
theorem encStopsAtAnUnwrittenCell : Obligations.EncStopsAtAnUnwrittenCell := by
  intro s i hd hdc hk hkc
  have past : exec .enc s = _ := execEnc_of_checks hd hdc hk hkc
  refine ⟨fun hi hr hw => ?_, fun hP hi hr hw => ?_⟩
  · rw [past, withSeq_of_unwritten (sp := .ibuf) hi hr hw]
  · obtain ⟨P, hPl, hPh⟩ := exists_holds_of_written hP
    rw [past, withSeq_of_holds (sp := .ibuf) hPl hPh, withSeq_of_unwritten (sp := .kbuf) hi hr hw]

/-- Settles O10: past its checks DEC reads the ciphertext first, tests its signature, and reads the keys after it. -/
theorem decStopsAtAnUnwrittenCell : Obligations.DecStopsAtAnUnwrittenCell := by
  intro s i hd hdc hk hkc
  have past : exec .dec s = _ := execDec_of_checks hd hdc hk hkc
  refine ⟨fun hi hr hw => ?_, fun hC hsig hi hr hw => ?_⟩
  · rw [past, withSeq_of_unwritten (sp := .ibuf) hi hr hw]
  · obtain ⟨C, hCl, hCh⟩ := exists_holds_of_written hC
    have signed : sigtValidate C = true := (sigtValidate_iff_signatureAt (by omega) hCh).2 (by rwa [hCl])
    rw [past, withSeq_of_holds (sp := .ibuf) hCl hCh, if_pos signed, withSeq_of_unwritten (sp := .kbuf) hi hr hw]

/-- Settles O18, from what each command can do. -/
theorem commandsStopOnlyAtUnwrittenCells : Obligations.CommandsStopOnlyAtUnwrittenCells := by
  intro i s
  cases i with
  | enc =>
    rcases execEnc_cases s with ⟨c, -, e⟩ | ⟨_, _, _, -, -, -, -, -, -, -, -, -, e⟩ | ⟨k, hk, hr, e⟩ |
      ⟨k, hk, hr, e⟩
    · exact .inl ⟨_, e⟩
    · exact .inl ⟨_, e⟩
    · exact .inr (.inl ⟨by decide, k, e, hk, hr⟩)
    · exact .inr (.inr ⟨by decide, k, e, hk, hr⟩)
  | dec =>
    rcases execDec_cases s with ⟨c, -, e⟩ | ⟨_, _, _, -, -, -, -, -, -, -, -, -, -, e⟩ | ⟨k, hk, hr, e⟩ |
      ⟨k, hk, hr, e⟩
    · exact .inl ⟨_, e⟩
    · exact .inl ⟨_, e⟩
    · exact .inr (.inl ⟨by decide, k, e, hk, hr⟩)
    · exact .inr (.inr ⟨by decide, k, e, hk, hr⟩)
  | kgen =>
    rcases execKgen_cases s with ⟨c, -, e⟩ | ⟨-, -, f, e⟩
    · exact .inl ⟨_, e⟩
    · exact .inl ⟨_, e⟩

/-! ### What the result of a command says and depends on -/

/-- Settles O20: the failure value is empty under this policy, and a result is at least one byte long. -/
theorem emptyResultMeansFailure : Obligations.EmptyResultMeansFailure := by
  intro i s t hi hv hp he
  rcases exec_next_cases he with ⟨c, hc, rfl⟩ | ⟨-, bs, h₀, hl, rfl⟩ | ⟨rfl, -⟩
  · simp [hp, failureValue, hc]
  · have olen : (finish bs s).olen.toNat = bs.length :=
      toNat_olen_setResult hv (hl.trans (dcap_add_three_le_capacity_obuf s.cfg))
    have nonzero : (finish bs s).olen ≠ 0 := fun h => by
      rw [h] at olen
      exact h₀.ne olen
    simpa only [finish_code, ne_eq, not_true_eq_false, iff_false] using nonzero
  · simp at hi

/-- Two answers of one command, from `s₁` and from `s₂`: both leave the same code and the same result, or both stop
for the same reason. -/
inductive SameResult (s₁ s₂ : State) : Answer → Answer → Prop
  | result (c : ResultCode) (bs : List Byte) :
    SameResult s₁ s₂ (.next (setStatus c (setResult bs s₁))) (.next (setStatus c (setResult bs s₂)))
  | fault (f : Fault) : SameResult s₁ s₂ (.fault f) (.fault f)
  | refused (r : Refusal) : SameResult s₁ s₂ (.refused r) (.refused r)

/-- What a host reads of the result is the same after both. -/
theorem SameResult.exists_next {s₁ s₂ t₁ : State} {a₂ : Answer} (h : SameResult s₁ s₂ (.next t₁) a₂) :
    ∃ t₂, a₂ = .next t₂ ∧ statusWord t₁ = statusWord t₂ ∧ t₁.olen = t₂.olen ∧ t₁.obuf = t₂.obuf := by
  cases h with
  | result c bs => exact ⟨_, rfl, by rw [statusWord_setStatus, statusWord_setStatus], rfl, rfl⟩

theorem sameResult_raiseFail {s₁ s₂ : State} (hc : s₁.cfg = s₂.cfg) (c : ResultCode) :
    SameResult s₁ s₂ (.next (raiseFail c s₁)) (.next (raiseFail c s₂)) := by
  unfold raiseFail
  rw [hc]
  exact .result c _

theorem sameResult_finishWith (s₁ s₂ : State) (r : Option (List Byte)) :
    SameResult s₁ s₂ (finishWith r s₁) (finishWith r s₂) := by
  cases r with
  | some bs => exact .result .ok bs
  | none => exact .refused .ekdUndefined

/-- An operand that the two states agree on is the same sequence for both, or stops both at the same cell. -/
theorem sameResult_withSeq {s₁ s₂ : State} {sp : Space} {n : Nat} {k₁ k₂ : List Byte → Answer}
    (h : ∀ j, j < n → (buffer s₁ sp).read j = (buffer s₂ sp).read j)
    (hk : ∀ bs, SameResult s₁ s₂ (k₁ bs) (k₂ bs)) :
    SameResult s₁ s₂ (withSeq s₁ sp n k₁) (withSeq s₂ sp n k₂) := by
  have same : (buffer s₁ sp).readSeq 0 n = (buffer s₂ sp).readSeq 0 n :=
    Memory.readSeq_congr fun j _ hj => h j (by omega)
  unfold withSeq
  rw [same]
  cases (buffer s₂ sp).readSeq 0 n with
  | ok bs => exact hk bs
  | error i => exact .fault _

/-- Two states that agree on the parameters, the two lengths and the operand cells below them (R23). -/
structure SameOperands (s₁ s₂ : State) : Prop where
  cfg : s₁.cfg = s₂.cfg
  dlen : s₁.dlen = s₂.dlen
  klen : s₁.klen = s₂.klen
  ibuf : ∀ j, j < s₂.dlen.toNat → s₁.ibuf.read j = s₂.ibuf.read j
  kbuf : ∀ j, j < s₂.klen.toNat → s₁.kbuf.read j = s₂.kbuf.read j

theorem SameOperands.execEnc {s₁ s₂ : State} (h : SameOperands s₁ s₂) :
    SameResult s₁ s₂ (execEnc s₁) (execEnc s₂) := by
  have fail := sameResult_raiseFail h.cfg
  unfold Machine.execEnc
  rw [h.cfg, h.dlen, h.klen]
  split
  · exact fail .errLen
  split
  · exact fail .errEmptyData
  split
  · exact fail .errEmptyKeys
  exact sameResult_withSeq h.ibuf fun P => sameResult_withSeq h.kbuf fun K => sameResult_finishWith s₁ s₂ _

theorem SameOperands.execDec {s₁ s₂ : State} (h : SameOperands s₁ s₂) :
    SameResult s₁ s₂ (execDec s₁) (execDec s₂) := by
  have fail := sameResult_raiseFail h.cfg
  unfold Machine.execDec
  rw [h.cfg, h.dlen, h.klen]
  split
  · exact fail .errLen
  split
  · exact fail .errEmptyKeys
  split
  · exact fail .errShort
  refine sameResult_withSeq h.ibuf fun C => ?_
  split
  · exact sameResult_withSeq h.kbuf fun K => sameResult_finishWith s₁ s₂ _
  · exact fail .errSig

/-- Two states that agree on the parameters and on what the random source supplies (R23, R78). -/
structure SameSource (s₁ s₂ : State) : Prop where
  cfg : s₁.cfg = s₂.cfg
  draws : s₁.draws = s₂.draws
  fresh : s₁.fresh = s₂.fresh

theorem SameSource.takeDraw {s₁ s₂ : State} (h : SameSource s₁ s₂) :
    (takeDraw s₁).1 = (takeDraw s₂).1 ∧ SameSource (takeDraw s₁).2 (takeDraw s₂).2 := by
  obtain ⟨hc, hd, hf⟩ := h
  unfold Machine.takeDraw
  rw [hc, hd, hf]
  cases s₂.draws <;> exact ⟨rfl, rfl, rfl, rfl⟩

theorem SameSource.takeDraws {s₁ s₂ : State} (h : SameSource s₁ s₂) (n : Nat) :
    (takeDraws n s₁).1 = (takeDraws n s₂).1 := by
  induction n generalizing s₁ s₂ with
  | zero => rfl
  | succ n ih =>
    obtain ⟨value, after⟩ := h.takeDraw
    exact congrArg₂ List.cons value (ih after)

/-- KGEN past its checks writes its draws to KBUF (R76). -/
theorem execKgen_of_checks {s : State} (hg : s.cfg.hasKgen = true) (hk : s.klen.toNat ≤ s.cfg.kcap) :
    ∃ t, execKgen s = .next (setStatus .ok t) ∧
      t.kbuf = s.kbuf.writeSeq 0 (takeDraws s.klen.toNat s).1 := by
  obtain ⟨f, hf⟩ := takeDraws_state s.klen.toNat s
  rw [execKgen, if_pos hg, if_neg (by omega)]
  exact ⟨_, rfl, by simp only [hf]⟩

/-- From two such states with the same KLEN, KGEN fails with the same code or writes the same keys. -/
theorem SameSource.execKgen {s₁ s₂ : State} (h : SameSource s₁ s₂) (hk : s₁.klen = s₂.klen) :
    (∃ c, c ≠ .ok ∧ execKgen s₁ = .next (raiseFail c s₁) ∧ execKgen s₂ = .next (raiseFail c s₂)) ∨
    (∃ t₁ t₂ keys, keys.length = s₁.klen.toNat ∧
      execKgen s₁ = .next (setStatus .ok t₁) ∧ t₁.kbuf = s₁.kbuf.writeSeq 0 keys ∧
      execKgen s₂ = .next (setStatus .ok t₂) ∧ t₂.kbuf = s₂.kbuf.writeSeq 0 keys) := by
  by_cases hg : s₁.cfg.hasKgen = true
  · by_cases hl : s₁.klen.toNat > s₁.cfg.kcap
    · refine .inl ⟨.errLen, by decide, ?_, ?_⟩
      · rw [Machine.execKgen, if_pos hg, if_pos hl]
      · rw [Machine.execKgen, ← h.cfg, ← hk, if_pos hg, if_pos hl]
    · obtain ⟨t₁, e₁, keys₁⟩ := execKgen_of_checks hg (Nat.le_of_not_gt hl)
      obtain ⟨t₂, e₂, keys₂⟩ := execKgen_of_checks (s := s₂) (h.cfg ▸ hg)
        (h.cfg ▸ hk ▸ Nat.le_of_not_gt hl)
      rw [← hk, ← h.takeDraws] at keys₂
      exact .inr ⟨t₁, t₂, _, takeDraws_length _ s₁, e₁, keys₁, e₂, keys₂⟩
  · refine .inl ⟨.errIllcmd, by decide, ?_, ?_⟩
    · rw [Machine.execKgen, if_neg hg]
    · rw [Machine.execKgen, ← h.cfg, if_neg hg]

/-- Settles O19: from two states with the same operands ENC and DEC leave the same result, and from two with the same
KLEN and random source KGEN fails alike or writes the same keys. -/
theorem resultsDependOnOperandsOnly : Obligations.ResultsDependOnOperandsOnly := by
  intro s₁ s₂ t₁ hc hk
  refine ⟨fun i hi hd hib hkb he => ?_, fun hdr hf he => ?_⟩
  · have operands : SameOperands s₁ s₂ := ⟨hc, hd, hk, hd ▸ hib, hk ▸ hkb⟩
    rcases hi with rfl | rfl
    · have answers : SameResult s₁ s₂ (exec .enc s₁) (exec .enc s₂) := operands.execEnc
      exact (he ▸ answers).exists_next
    · have answers : SameResult s₁ s₂ (exec .dec s₁) (exec .dec s₂) := operands.execDec
      exact (he ▸ answers).exists_next
  · have source : SameSource s₁ s₂ := ⟨hc, hdr, hf⟩
    rcases source.execKgen hk with ⟨c, hne, e₁, e₂⟩ | ⟨u₁, u₂, keys, hl, e₁, keys₁, e₂, keys₂⟩
    · obtain rfl : raiseFail c s₁ = t₁ := Host.Outcome.next.inj (e₁.symm.trans he)
      exact ⟨_, e₂, by simp only [raiseFail, statusWord_setStatus], fun hok => absurd hok hne⟩
    · obtain rfl : setStatus .ok u₁ = t₁ := Host.Outcome.next.inj (e₁.symm.trans he)
      refine ⟨_, e₂, by simp only [statusWord_setStatus], fun _ k hkl => ?_⟩
      have inside : 0 ≤ k ∧ k < 0 + keys.length := by omega
      rw [setStatus_kbuf, setStatus_kbuf, keys₁, keys₂, Memory.read_writeSeq, Memory.read_writeSeq, if_pos inside,
        if_pos inside]

end Sys2Proof.Machine

namespace Sys2Proof.Machine

/-! ### What one host transaction and one step do -/

/-- With a transaction pending, a step performs it (R40). -/
theorem step_of_pending {s : State} {x : Transaction} {rest : List Transaction} (h : s.pending = x :: rest) :
    step s = perform x { s with pending := rest } := by
  rw [step, transact, h]

/-- With nothing pending, a step leaves the state (R99, R112). -/
theorem step_of_idle {s : State} (h : s.pending = []) : step s = .next s := by
  rw [step, transact, h]

@[simp] theorem buffer_setPending (s : State) (p : List Transaction) (sp : Space) :
    buffer { s with pending := p } sp = buffer s sp := by cases sp <;> rfl

/-- The register numbers are 0 to 4 (R11). -/
theorem regOfNumber_eq_none_iff : (r : Nat) → (regOfNumber r = none ↔ ¬ r ≤ 4)
  | 0 | 1 | 2 | 3 | 4 => by decide
  | r + 5 => iff_of_true rfl (by omega)

theorem perform_regRead {r : Nat} {reg : Reg} (h : regOfNumber r = some reg) (s : State) :
    perform (.regRead r) s = .next (pushReply (.word (readReg s reg)) s) := by
  simp only [perform, performRegRead, h]

theorem perform_regWrite {r : Nat} {reg : Reg} (h : regOfNumber r = some reg) (hne : reg ≠ .cmd) (v : Word)
    (s : State) : perform (.regWrite r v) s = .next (storeReg reg v s) := by
  cases reg with
  | cmd => exact absurd rfl hne
  | _ => simp only [perform, performRegWrite, h]

theorem perform_regWrite_cmd {r : Nat} (h : regOfNumber r = some .cmd) (v : Word) (s : State) :
    perform (.regWrite r v) s = commandWrite v s := by
  simp only [perform, performRegWrite, h]

theorem perform_bufWrite {s : State} {sp : Space} {i : Nat} (h : i < capacity s.cfg sp) (b : Byte) :
    perform (.bufWrite sp i b) s = .next (storeByte sp i b s) :=
  if_pos h

/-- A read within range returns the byte of a written cell, and for any other some byte (R33). -/
theorem perform_bufRead {s : State} {sp : Space} {i : Nat} (h : i < capacity s.cfg sp) :
    ∃ b f, perform (.bufRead sp i) s = .next (pushReply (.byte b) { s with fresh := f }) ∧
      ∀ c, (buffer s sp).read i = some c → b = c := by
  simp only [perform, performBufRead, if_pos h]
  cases hr : (buffer s sp).read i with
  | some b => exact ⟨b, s.fresh, rfl, fun c hc => Option.some.inj hc⟩
  | none => exact ⟨_, _, rfl, nofun⟩

/-! ### The host's byte and register transactions -/

theorem buffer_storeByte_same {sp : Space} (h : sp ≠ .obuf) (i : Nat) (b : Byte) (s : State) :
    buffer (storeByte sp i b s) sp = (buffer s sp).write i b := by
  cases sp with
  | obuf => exact absurd rfl h
  | _ => rfl

theorem buffer_storeByte_other {sp sp' : Space} (h : sp' ≠ sp) (i : Nat) (b : Byte) (s : State) :
    buffer (storeByte sp i b s) sp' = buffer s sp' := by
  cases sp <;> cases sp' <;> simp [storeByte, buffer] at h ⊢

/-- Of the whole state, a store touches IBUF and KBUF only. -/
theorem storeByte_frame (sp : Space) (i : Nat) (b : Byte) (s : State) :
    storeByte sp i b s = { s with ibuf := (storeByte sp i b s).ibuf, kbuf := (storeByte sp i b s).kbuf } := by
  cases sp <;> rfl

/-- Settles O29: a write reaches another buffer not at all, and in its own buffer one cell. -/
theorem hostByteTransactions : Obligations.HostByteTransactions := by
  intro s sp i b rest hi
  have stores := perform_bufWrite (s := { s with pending := rest }) hi b
  refine ⟨fun hp hsp => ?_, fun hp hsp => ?_, fun hp => ?_⟩
  · refine ⟨_, (step_of_pending hp).trans stores, ?_, fun sp' j hne => ?_, storeByte_frame sp i b _⟩
    · rw [buffer_storeByte_same hsp, Memory.read_write_same]
    · by_cases hs : sp' = sp
      · have hj : j ≠ i := hne.resolve_left (absurd hs)
        rw [hs, buffer_storeByte_same hsp, Memory.read_write_other _ b hj, buffer_setPending]
      · rw [buffer_storeByte_other hs, buffer_setPending]
  · subst hsp
    exact (step_of_pending hp).trans stores
  · obtain ⟨x, f, hx, value⟩ := perform_bufRead (s := { s with pending := rest }) hi
    exact ⟨x, f, (step_of_pending hp).trans hx, by rwa [buffer_setPending] at value⟩

/-- Settles O31: a step performs the transaction, whose register the number names. -/
theorem hostRegisterTransactions : Obligations.HostRegisterTransactions := by
  intro s v rest
  refine ⟨fun hp => ?_, fun hp => ?_, fun hp => ?_, fun r hr hp => ?_, fun r w hrw hp => ?_⟩
  · rw [step_of_pending hp, perform_regWrite (reg := .dlen) rfl (by decide), storeReg]
  · rw [step_of_pending hp, perform_regWrite (reg := .klen) rfl (by decide), storeReg]
  · rw [step_of_pending hp, perform_regWrite_cmd rfl]
  · rcases hr with rfl | rfl
    · rw [step_of_pending hp, perform_regWrite (reg := .status) rfl (by decide), storeReg]
    · rw [step_of_pending hp, perform_regWrite (reg := .olen) rfl (by decide), storeReg]
  · have names : ∃ reg, regOfNumber r = some reg ∧ readReg { s with pending := rest } reg = w := by
      simp only [List.mem_cons, Prod.mk.injEq, List.not_mem_nil, or_false] at hrw
      rcases hrw with ⟨rfl, rfl⟩ | ⟨rfl, rfl⟩ | ⟨rfl, rfl⟩ | ⟨rfl, rfl⟩ | ⟨rfl, rfl⟩ <;> exact ⟨_, rfl, rfl⟩
    obtain ⟨reg, hreg, rfl⟩ := names
    rw [step_of_pending hp, perform_regRead hreg, pushReply]

theorem storeByte_storeByte (sp : Space) (i : Nat) (b : Byte) (s : State) :
    storeByte sp i b (storeByte sp i b s) = storeByte sp i b s := by
  cases sp <;> simp only [storeByte, Memory.write_write]

theorem storeReg_storeReg (r : Reg) (v : Word) (s : State) : storeReg r v (storeReg r v s) = storeReg r v s := by
  cases r <;> rfl

/-- A write of a register other than CMD, done twice, is the same write done once (R36). -/
theorem perform_regWrite_twice {r : Nat} {reg : Reg} {v : Word} {s t : State} (hr : regOfNumber r = some reg)
    (hne : reg ≠ .cmd) (h : perform (.regWrite r v) s = .next t) : perform (.regWrite r v) t = .next t := by
  rw [perform_regWrite hr hne] at h ⊢
  obtain rfl := Host.Outcome.next.inj h
  rw [storeReg_storeReg]

/-- A write of a byte, done twice, is the same write done once (R36). -/
theorem perform_bufWrite_twice {sp : Space} {i : Nat} {b : Byte} {s t : State}
    (h : perform (.bufWrite sp i b) s = .next t) : perform (.bufWrite sp i b) t = .next t := by
  by_cases hi : i < capacity s.cfg sp
  · obtain rfl := Host.Outcome.next.inj ((perform_bufWrite hi b).symm.trans h)
    rw [perform_bufWrite (by rwa [storeByte_cfg]), storeByte_storeByte]
  · simp [perform, performBufWrite, hi] at h

/-- Settles O30: DLEN and KLEN are registers other than CMD. -/
theorem hostWritesAreIdempotent : Obligations.HostWritesAreIdempotent := by
  intro s t x hx h
  rcases hx with ⟨sp, i, b, rfl⟩ | ⟨v, rfl | rfl⟩
  · exact perform_bufWrite_twice h
  · exact perform_regWrite_twice (reg := .dlen) rfl (by decide) h
  · exact perform_regWrite_twice (reg := .klen) rfl (by decide) h

/-! ### Which transactions are refused -/

/-- A write of CMD runs a command or the failure procedure, and no command is refused (R111). -/
theorem commandWrite_ne_refused (v : Word) (s : State) (q : Refusal) : commandWrite v s ≠ .refused q := by
  unfold commandWrite
  split
  · rename_i i _
    rcases commandsStopOnlyAtUnwrittenCells i s with ⟨t, e⟩ | ⟨-, k, e, -⟩ | ⟨-, k, e, -⟩ <;> rw [e] <;> exact nofun
  · exact nofun

/-- A transaction that names a register or a cell of the block is not refused. -/
theorem perform_ne_refused {x : Transaction} {s : State} (h : NamesSomething s.cfg x) (q : Refusal) :
    perform x s ≠ .refused q := by
  have names : ∀ r ≤ 4, ∃ reg, regOfNumber r = some reg := fun r hr =>
    Option.ne_none_iff_exists'.1 fun hn => (regOfNumber_eq_none_iff r).1 hn hr
  cases x with
  | regRead r =>
    obtain ⟨reg, hr⟩ := names r h
    rw [perform_regRead hr]
    exact nofun
  | regWrite r v =>
    obtain ⟨reg, hr⟩ := names r h
    by_cases hc : reg = .cmd
    · rw [perform_regWrite_cmd (hc ▸ hr)]
      exact commandWrite_ne_refused v s q
    · rw [perform_regWrite hr hc]
      exact nofun
  | bufRead sp i =>
    obtain ⟨b, f, e, -⟩ := perform_bufRead (s := s) h
    rw [e]
    exact nofun
  | bufWrite sp i b =>
    rw [perform_bufWrite h]
    exact nofun
  | reset => exact nofun

/-- A transaction that names nothing in the block is refused (R38, U5). -/
theorem perform_refused_of_nameless {x : Transaction} {s : State} (h : ¬ NamesSomething s.cfg x) :
    ∃ q, perform x s = .refused q := by
  cases x with
  | regRead r =>
    have hr := (regOfNumber_eq_none_iff r).2 h
    exact ⟨.noSuchRegister r, by simp only [perform, performRegRead, hr]⟩
  | regWrite r v =>
    have hr := (regOfNumber_eq_none_iff r).2 h
    exact ⟨.noSuchRegister r, by simp only [perform, performRegWrite, hr]⟩
  | bufRead sp i => exact ⟨.noSuchCell sp i, if_neg h⟩
  | bufWrite sp i b => exact ⟨.noSuchCell sp i, if_neg h⟩
  | reset => exact absurd trivial h

/-- Settles O32: a step is refused as the transaction it performs is. -/
theorem onlyNamelessTransactionsAreRefused : Obligations.OnlyNamelessTransactionsAreRefused := by
  intro s x rest hp
  rw [step_of_pending hp]
  exact ⟨fun ⟨q, hq⟩ named => perform_ne_refused (s := { s with pending := rest }) named q hq,
    perform_refused_of_nameless (s := { s with pending := rest })⟩

/-! ### The order of the host's transactions -/

/-- Settles O37: the transaction a step performs leaves the pending list alone. -/
theorem transactionsTakeEffectInOrder : Obligations.TransactionsTakeEffectInOrder := by
  refine ⟨fun s t h => ?_, fun s => step_of_idle⟩
  rcases step_next_cases h with ⟨hp, rfl⟩ | ⟨x, rest, hp, hx⟩
  · rw [hp, List.tail_nil]
  · have kept : t.pending = rest := (perform_setPending (p := rest) hx).2
    rw [hp, List.tail_cons, kept]

/-- Settles O47, by induction on the lines: the first step performs the first line with the other lines pending, which
the line neither sees nor changes. -/
theorem linesRunAsSteps : Obligations.LinesRunAsSteps := by
  intro lines
  induction lines with
  | nil => exact fun s t h => h
  | cons x xs ih =>
    intro s t h
    cases hx : perform x s with
    | next u =>
      have tail : performAll xs u = .next t := by simpa only [performAll, hx] using h
      obtain ⟨first, kept⟩ := perform_setPending (p := xs ++ s.pending) hx
      have hstep : step { s with pending := (x :: xs) ++ s.pending } = .next { u with pending := xs ++ s.pending } :=
        (step_of_pending rfl).trans first
      rw [List.length_cons, run_next hstep, ← kept]
      exact ih u t tail
    | fault f => simp only [performAll, hx, reduceCtorEq] at h
    | refused r => simp only [performAll, hx, reduceCtorEq] at h

/-! ### ENC and DEC keep their inputs -/

/-- From two states with the same operands, ENC and DEC leave the same result (R23). -/
theorem SameOperands.exec {s₁ s₂ : State} (h : SameOperands s₁ s₂) {i : Instr} (hi : i = .enc ∨ i = .dec) :
    SameResult s₁ s₂ (exec i s₁) (exec i s₂) := by
  rcases hi with rfl | rfl
  · exact h.execEnc
  · exact h.execDec

/-- A next state of ENC or DEC is the state before with a code and a result. -/
theorem SameResult.eq_setStatus_setResult {s₁ s₂ t : State} {a : Answer} (h : SameResult s₁ s₂ (.next t) a) :
    ∃ c bs, t = setStatus c (setResult bs s₁) := by
  cases h with
  | result c bs => exact ⟨c, bs, rfl⟩

/-- A result is overwritten by the next one: the same result left on the state it led to is that state again. -/
theorem SameResult.eq_next {s t : State} {a : Answer} (h : SameResult s t (.next t) a) : a = .next t := by
  cases h with
  | result c bs => rfl

/-- Settles O17: the next state has the operands of the state before, so the command leaves the same result again. -/
theorem encAndDecPreserveInputs : Obligations.EncAndDecPreserveInputs := by
  intro i s t hi he
  have first : SameResult s s (.next t) (exec i s) :=
    he ▸ SameOperands.exec ⟨rfl, rfl, rfl, fun _ _ => rfl, fun _ _ => rfl⟩ hi
  obtain ⟨c, bs, rfl⟩ := first.eq_setStatus_setResult
  have operands : SameOperands s (setStatus c (setResult bs s)) :=
    ⟨rfl, rfl, rfl, fun _ _ => rfl, fun _ _ => rfl⟩
  have again := operands.exec hi
  rw [he] at again
  exact ⟨rfl, again.eq_next⟩

end Sys2Proof.Machine

namespace Sys2Proof.Machine

/-! ### The decoder on whole words, and a write of CMD -/

/-- The two fields of R42 together are the whole word. -/
theorem zeroField_append_opField (v : Word) : zeroField v ++ opField v = v := by
  unfold zeroField opField
  rw [BitVec.extractLsb'_append_extractLsb'_eq_extractLsb' (by decide)]
  exact BitVec.extractLsb'_eq_self

/-- A word is a command's word exactly where its field `zero` is 0 and its field `op` is the command's (R46). -/
theorem eq_encode_iff (v : Word) (i : Instr) :
    v = encode i ↔ zeroField v = 0 ∧ opField v = opField (encode i) := by
  have hz : zeroField (encode i) = 0 := by cases i <;> decide
  refine ⟨fun h => by rw [h]; exact ⟨hz, rfl⟩, fun ⟨hv, ho⟩ => ?_⟩
  rw [← zeroField_append_opField v, ← zeroField_append_opField (encode i), hv, ho, hz]

/-- A word decodes to a command exactly where it is the command's word and the instance has the command (R48). -/
theorem decode_eq_ok_iff (c : Config) (v : Word) (i : Instr) :
    decode c v = .ok i ↔ v = encode i ∧ i.wf c = true := by
  have enc : opField (encode .enc) = 0x01#8 := rfl
  have dec : opField (encode .dec) = 0x02#8 := rfl
  have kgen : opField (encode .kgen) = 0x03#8 := rfl
  rw [eq_encode_iff]
  by_cases hz : zeroField v = 0
  · simp only [decode, hz, ne_eq, not_true_eq_false, if_false, true_and]
    split_ifs <;> cases i <;> simp [*, Instr.wf]
  · rw [decode, if_pos hz]
    exact iff_of_false nofun fun h => hz h.1.1

/-- A word is reserved exactly where it is the word of no command the instance has (R45, R48). -/
theorem exists_decode_eq_error_iff (c : Config) (v : Word) :
    (∃ e, decode c v = .error e) ↔ v ≠ 0x01 ∧ v ≠ 0x02 ∧ ¬ (v = 0x03 ∧ c.hasKgen = true) := by
  have noCommand : (∃ e, decode c v = .error e) ↔ ∀ i, ¬ (v = encode i ∧ i.wf c = true) := by
    simp only [← decode_eq_ok_iff]
    cases decode c v <;> simp
  refine noCommand.trans ⟨fun h => ?_, fun ⟨h₁, h₂, h₃⟩ i => ?_⟩
  · exact ⟨fun hv => h .enc ⟨hv, rfl⟩, fun hv => h .dec ⟨hv, rfl⟩, h .kgen⟩
  · cases i with
    | enc => exact fun hi => h₁ hi.1
    | dec => exact fun hi => h₂ hi.1
    | kgen => exact h₃

/-- Settles O2: what decodes to each command, and what to none. -/
theorem decodeIsTheMatchOnTheWholeWord : Obligations.DecodeIsTheMatchOnTheWholeWord := by
  refine ⟨fun c i hi => (decode_eq_ok_iff c _ i).2 ⟨rfl, hi⟩, fun c v => ⟨?_, ?_, ?_, ?_⟩⟩
  · exact (decode_eq_ok_iff c v .enc).trans (and_iff_left rfl)
  · exact (decode_eq_ok_iff c v .dec).trans (and_iff_left rfl)
  · exact decode_eq_ok_iff c v .kgen
  · exact exists_decode_eq_error_iff c v

/-- Settles O1, by decoding each of the seven words. -/
theorem commandWordsDecode : Obligations.CommandWordsDecode := fun _ => ⟨rfl, rfl, rfl, rfl, rfl, rfl, rfl⟩

/-- A write of a command's word to CMD runs the command (R49). -/
theorem commandWrite_of_decode {s : State} {v : Word} {i : Instr} (h : decode s.cfg v = .ok i) :
    commandWrite v s = exec i s := by
  rw [commandWrite, h]

/-- A write of the word of a command the instance has runs it (R44, R49). -/
theorem commandWrite_encode {s : State} {i : Instr} (h : i.wf s.cfg = true) :
    commandWrite (encode i) s = exec i s :=
  commandWrite_of_decode ((decode_eq_ok_iff s.cfg _ i).2 ⟨rfl, h⟩)

/-- A write of a reserved word to CMD runs the failure procedure (R45). -/
theorem commandWrite_of_reserved {s : State} {v : Word} {e : Reserved} (h : decode s.cfg v = .error e) :
    commandWrite v s = .next (raiseFail .errIllcmd s) := by
  rw [commandWrite, h]

theorem step_of_command_pending {s : State} {v : Word} {rest : List Transaction}
    (h : s.pending = .regWrite 0 v :: rest) : step s = commandWrite v { s with pending := rest } :=
  (step_of_pending h).trans (perform_regWrite_cmd rfl v _)

/-- Issuing a command's word puts its write first. -/
theorem withFetchWord_encode (s : State) (i : Instr) :
    s.withFetchWord 32 (encode i).toNat = issueFirst (.regWrite 0 (encode i)) s := by
  have word : (encode i).toNat % 2 ^ 32 = (encode i).toNat := Nat.mod_eq_of_lt (encode i).isLt
  rw [State.withFetchWord, issueCommandWord, word, if_pos (encode i).isLt, BitVec.ofNat_toNat, BitVec.setWidth_eq]

/-- Settles O3: the step performs the write of CMD, whose word decodes to the command. -/
theorem stepRunsTheDecodedCommand : Obligations.StepRunsTheDecodedCommand := by
  refine ⟨fun s v i rest hp hd => ?_, fun s i hi => ?_⟩
  · exact (step_of_command_pending hp).trans (commandWrite_of_decode hd)
  · rw [withFetchWord_encode, step_of_command_pending (issueFirst_pending _ s)]
    exact commandWrite_encode hi

/-- Settles O4: a word that is no command's is reserved, and its write runs the failure procedure. -/
theorem reservedWordsFail : Obligations.ReservedWordsFail := by
  intro s v rest hp h₁ h₂ h₃
  obtain ⟨e, he⟩ := (exists_decode_eq_error_iff s.cfg v).2 ⟨h₁, h₂, h₃⟩
  exact ⟨_, (step_of_command_pending hp).trans (commandWrite_of_reserved he), raiseFail_failsTo .errIllcmd _⟩

/-! ### What leaves the result alone -/

/-- STATUS reads the same where CODE and DONE are the same (R16). -/
theorem statusWord_congr {s t : State} (hc : t.code = s.code) (hd : t.done = s.done) :
    statusWord t = statusWord s := by
  rw [statusWord, statusWord, hc, hd]

/-- A transaction that is neither a write of CMD nor reset leaves STATUS, OLEN and OBUF (R36). -/
theorem perform_keeps_result {x : Transaction} {s t : State} (h : perform x s = .next t)
    (hw : ∀ v, x ≠ .regWrite 0 v) (hr : x ≠ .reset) :
    statusWord t = statusWord s ∧ t.olen = s.olen ∧ t.obuf = s.obuf := by
  rcases perform_next_cases h with ⟨r, reg, -, -, rfl⟩ | ⟨r, reg, v, -, -, -, rfl⟩ | ⟨v, i, rfl, -, -⟩ |
    ⟨v, e, rfl, -, -⟩ | ⟨sp, i, b, f, -, -, rfl, -⟩ | ⟨sp, i, b, -, -, rfl⟩ | ⟨rfl, -⟩
  · exact ⟨rfl, rfl, rfl⟩
  · exact ⟨statusWord_congr (storeReg_code reg v s) (storeReg_done reg v s), storeReg_olen reg v s,
      storeReg_obuf reg v s⟩
  · exact absurd rfl (hw v)
  · exact absurd rfl (hw v)
  · exact ⟨rfl, rfl, rfl⟩
  · exact ⟨statusWord_congr (storeByte_code sp i b s) (storeByte_done sp i b s), storeByte_olen sp i b s,
      storeByte_obuf sp i b s⟩
  · exact absurd rfl hr

/-- Settles O38: a step idles or performs one transaction, and the two kinds that change the result are excluded. -/
theorem onlyCommandsChangeTheResult : Obligations.OnlyCommandsChangeTheResult := by
  intro s t h hw hr
  rcases step_next_cases h with ⟨-, rfl⟩ | ⟨x, rest, hp, hx⟩
  · exact ⟨rfl, rfl, rfl⟩
  · exact perform_keeps_result (s := { s with pending := rest }) hx (fun v hv => hw v rest (hv ▸ hp))
      fun hv => hr rest (hv ▸ hp)

end Sys2Proof.Machine

namespace Sys2Proof.Machine

/-! ### Lists of lines -/

theorem performAll_cons {x : Transaction} {xs : List Transaction} {s t : State} (h : perform x s = .next t) :
    performAll (x :: xs) s = performAll xs t := by
  simp only [performAll, h]

theorem scriptBytes_length (sp : Space) (i : Nat) (bs : List Byte) : (scriptBytes sp i bs).length = bs.length := by
  induction bs generalizing i with
  | nil => rfl
  | cons b bs ih => rw [scriptBytes, List.length_cons, List.length_cons, ih]

theorem scriptData_length (P : List Byte) : (scriptData P).length = P.length + 1 := by
  rw [scriptData, scriptLd, List.length_append, scriptBytes_length, List.length_singleton]

theorem scriptKeys_length (K : List Byte) : (scriptKeys K).length = K.length + 1 := by
  rw [scriptKeys, scriptLd, List.length_append, scriptBytes_length, List.length_singleton]

/-! ### The operands the lines `data` and `keys` load -/

/-- The state `data P`, `keys K` leave (R51). -/
def loadOperands (P K : List Byte) (s : State) : State :=
  { s with
    ibuf := s.ibuf.writeSeq 0 P, dlen := BitVec.ofNat 32 P.length
    kbuf := s.kbuf.writeSeq 0 K, klen := BitVec.ofNat 32 K.length }

theorem performAll_loadOperands {P K : List Byte} {s : State} (hP : P.length ≤ s.cfg.dcap + 3)
    (hK : K.length ≤ s.cfg.kcap) :
    performAll (scriptData P ++ scriptKeys K) s = .next (loadOperands P K s) :=
  (performAll_append (performAll_scriptData hP)).trans (performAll_scriptKeys hK)

theorem ibuf_loadOperands_holds (P K : List Byte) (s : State) : (loadOperands P K s).ibuf.Holds P :=
  Memory.holds_writeSeq s.ibuf P

theorem kbuf_loadOperands_holds (P K : List Byte) (s : State) : (loadOperands P K s).kbuf.Holds K :=
  Memory.holds_writeSeq s.kbuf K

/-- A register holds a length that fits it (R13, R14). -/
theorem toNat_ofNat_word {n : Nat} (h : n < 2 ^ 32) : (BitVec.ofNat 32 n).toNat = n := by
  rw [BitVec.toNat_ofNat, Nat.mod_eq_of_lt h]

theorem toNat_dlen_loadOperands {P : List Byte} {s : State} (hv : s.cfg.Valid) (hP : P.length ≤ s.cfg.dcap + 3)
    (K : List Byte) : (loadOperands P K s).dlen.toNat = P.length := by
  obtain ⟨-, -, hmax⟩ := hv
  exact toNat_ofNat_word (by omega)

theorem toNat_klen_loadOperands {K : List Byte} {s : State} (hv : s.cfg.Valid) (hK : K.length ≤ s.cfg.kcap)
    (P : List Byte) : (loadOperands P K s).klen.toNat = K.length := by
  obtain ⟨-, -, hmax⟩ := hv
  exact toNat_ofNat_word (by omega)

/-! ### The commands, case by case of the order of failures (R89) -/

theorem execEnc_of_no_data {s : State} (hd : s.dlen.toNat = 0) (hk : s.klen.toNat ≤ s.cfg.kcap) :
    execEnc s = .next (raiseFail .errEmptyData s) := by
  rw [execEnc, if_neg (by omega), if_pos hd]

theorem execEnc_of_no_keys {s : State} (hd : 1 ≤ s.dlen.toNat) (hdc : s.dlen.toNat ≤ s.cfg.dcap)
    (hk : s.klen.toNat = 0) : execEnc s = .next (raiseFail .errEmptyKeys s) := by
  rw [execEnc, if_neg (by omega), if_neg (by omega), if_pos hk]

theorem execDec_of_no_keys {s : State} (hdc : s.dlen.toNat ≤ s.cfg.dcap + 3) (hk : s.klen.toNat = 0) :
    execDec s = .next (raiseFail .errEmptyKeys s) := by
  rw [execDec, if_neg (by omega), if_pos hk]

theorem execDec_of_short {s : State} (hd : s.dlen.toNat < 4) (hk : 1 ≤ s.klen.toNat)
    (hkc : s.klen.toNat ≤ s.cfg.kcap) : execDec s = .next (raiseFail .errShort s) := by
  rw [execDec, if_neg (by omega), if_neg (by omega), if_pos hd]

theorem execDec_of_unsigned {s : State} {C : List Byte} (hC : C.length = s.dlen.toNat) (hC₀ : 4 ≤ C.length)
    (hCc : C.length ≤ s.cfg.dcap + 3) (hk : 1 ≤ s.klen.toNat) (hkc : s.klen.toNat ≤ s.cfg.kcap)
    (hi : s.ibuf.Holds C) (hs : sigtValidate C = false) : execDec s = .next (raiseFail .errSig s) := by
  have unsigned : ¬ sigtValidate C = true := by rw [hs]; exact Bool.false_ne_true
  rw [execDec_of_checks (hC ▸ hC₀) (hC ▸ hCc) hk hkc, withSeq_of_holds (sp := .ibuf) hC hi, if_neg unsigned]

/-- KGEN past its checks: the whole next state (R76). -/
theorem exists_execKgen_eq {s : State} (hg : s.cfg.hasKgen = true) (hk : s.klen.toNat ≤ s.cfg.kcap) :
    ∃ f, execKgen s = .next (setStatus .ok
      { s with
        kbuf := s.kbuf.writeSeq 0 (takeDraws s.klen.toNat s).1
        draws := s.draws.drop s.klen.toNat
        fresh := f }) := by
  obtain ⟨f, hf⟩ := takeDraws_state s.klen.toNat s
  exact ⟨f, by rw [execKgen, if_pos hg, if_neg (by omega)]; simp only [hf]⟩

/-- ENC on operands loaded within capacity leaves their ciphertext (R67). -/
theorem execEnc_loadOperands {P K C : List Byte} {s : State} (hv : s.cfg.Valid) (hP₀ : 1 ≤ P.length)
    (hP : P.length ≤ s.cfg.dcap) (hK₀ : 1 ≤ K.length) (hK : K.length ≤ s.cfg.kcap) (hC : encrypt P K = some C) :
    execEnc (loadOperands P K s) = .next (finish C (loadOperands P K s)) :=
  execEnc_of_holds (toNat_dlen_loadOperands hv (by omega) K).symm (toNat_klen_loadOperands hv hK P).symm hP₀ hK₀
    hP hK (ibuf_loadOperands_holds P K s) (kbuf_loadOperands_holds P K s) hC

/-- DEC on operands loaded within capacity, the ciphertext signed, leaves their plaintext (R71). -/
theorem execDec_loadOperands {C K P : List Byte} {s : State} (hv : s.cfg.Valid) (hC₀ : 4 ≤ C.length)
    (hC : C.length ≤ s.cfg.dcap + 3) (hK₀ : 1 ≤ K.length) (hK : K.length ≤ s.cfg.kcap)
    (hs : sigtValidate C = true) (hP : decrypt C K = some P) :
    execDec (loadOperands C K s) = .next (finish P (loadOperands C K s)) :=
  execDec_of_holds (toNat_dlen_loadOperands hv hC K).symm (toNat_klen_loadOperands hv hK C).symm hC₀ hK₀ hC hK
    (ibuf_loadOperands_holds C K s) (kbuf_loadOperands_holds C K s) hs hP

/-- A ciphertext of a plaintext within capacity fits OBUF. -/
theorem encrypt_length_le_capacity {c : Config} {P K C : List Byte} (hC : encrypt P K = some C)
    (hP : P.length ≤ c.dcap) : C.length ≤ capacity c .obuf := by
  have := encrypt_length hC
  have := dcap_add_three_le_capacity_obuf c
  omega

/-- A plaintext of a ciphertext within capacity fits OBUF. -/
theorem decrypt_length_le_capacity {c : Config} {C K P : List Byte} (hP : decrypt C K = some P)
    (hC : C.length ≤ c.dcap + 3) : P.length ≤ capacity c .obuf := by
  have := decrypt_length hP
  have := dcap_add_three_le_capacity_obuf c
  omega

/-! ### ENC by its host lines, as steps -/

/-- `data P`, `keys K`, `enc` within capacity leave the ciphertext (R51, R52). -/
theorem performAll_encrypt_lines {P K C : List Byte} {s : State} (hv : s.cfg.Valid) (hP₀ : 1 ≤ P.length)
    (hP : P.length ≤ s.cfg.dcap) (hK₀ : 1 ≤ K.length) (hK : K.length ≤ s.cfg.kcap) (hC : encrypt P K = some C) :
    performAll (scriptData P ++ scriptKeys K ++ scriptEnc) s = .next (finish C (loadOperands P K s)) := by
  have command : perform (.regWrite 0 (encode .enc)) (loadOperands P K s) = .next (finish C (loadOperands P K s)) := by
    rw [perform_regWrite_cmd rfl, commandWrite_encode rfl]
    exact execEnc_loadOperands hv hP₀ hP hK₀ hK hC
  rw [performAll_append (performAll_loadOperands (by omega) hK)]
  exact performAll_cons command

/-- Settles O28: the steps do what the lines do, performed one after the other with the other transactions pending. -/
theorem sourceCallEncrypts : Obligations.SourceCallEncrypts := by
  intro s P K rest hv hP₀ hP hK₀ hK hp
  obtain ⟨C, hC⟩ := exists_encrypt hP₀ hK₀
  have run := linesRunAsSteps _ { s with pending := rest } _ (performAll_encrypt_lines hv hP₀ hP hK₀ hK hC)
  rw [List.length_append, List.length_append, scriptData_length, scriptKeys_length, ← hp] at run
  exact ⟨C, _, hC, run, statusWord_finish C _, toNat_olen_setResult hv (encrypt_length_le_capacity hC hP),
    Memory.read_ofSeq_zero C, rfl⟩

/-! ### What the source's calls return -/

/-- The call returns `bs` with code `c`, having loaded `P` and `K`; OBUF holds what it returns, and the host has read
STATUS, OLEN and that sequence (R52). -/
def CallReturns (s : State) (P K : List Byte) (a : CallAnswer) (c : ResultCode) (bs : List Byte) : Prop :=
  ∃ t, a = .next (bs, t) ∧ t.code = c ∧ t.ibuf.Holds P ∧ t.kbuf.Holds K ∧ t.obuf.IsExactly bs ∧
    t.replies = s.replies ++ .word (statusWord t) :: .word t.olen :: bs.map .byte

theorem requireFits_of_lt {length limit : Nat} (h : limit < length) :
    requireFits length limit = .error (.sequenceTooLong length limit) :=
  if_neg (by omega)

theorem requireFits_of_le {length limit : Nat} (h : length ≤ limit) : requireFits length limit = .ok () :=
  if_pos h

section Calls

variable {s : State} {P K : List Byte} (hv : s.cfg.Valid) (hK : K.length ≤ s.cfg.kcap)
include hv hK

/-- `encrypt` returns what ENC leaves on the loaded operands. -/
theorem sourceEncrypt_of_execEnc (hP : P.length ≤ s.cfg.dcap) {c : ResultCode} {bs : List Byte}
    (hc : bs.length ≤ capacity s.cfg .obuf) (hf : c ≠ .ok → bs = failureValue s.cfg.failPolicy)
    (h : execEnc (loadOperands P K s) = .next (setStatus c (setResult bs (loadOperands P K s)))) :
    CallReturns s P K (sourceEncrypt P K s) c bs := by
  have fits := capacity_obuf_lt_of_valid hv
  rw [sourceEncrypt, callEncrypt_of_le hP hK]
  exact withLines_command (by omega) hK rfl hc (by omega) hf ((commandWrite_encode (i := .enc) rfl).trans h)

/-- `decrypt` returns what DEC leaves on the loaded operands. -/
theorem sourceDecrypt_of_execDec (hP : P.length ≤ s.cfg.dcap + 3) {c : ResultCode} {bs : List Byte}
    (hc : bs.length ≤ capacity s.cfg .obuf) (hf : c ≠ .ok → bs = failureValue s.cfg.failPolicy)
    (h : execDec (loadOperands P K s) = .next (setStatus c (setResult bs (loadOperands P K s)))) :
    CallReturns s P K (sourceDecrypt P K s) c bs := by
  have fits := capacity_obuf_lt_of_valid hv
  rw [sourceDecrypt, callDecrypt_of_le hP hK]
  exact withLines_command hP hK rfl hc (by omega) hf ((commandWrite_encode (i := .dec) rfl).trans h)

theorem sourceEncrypt_of_raiseFail (hP : P.length ≤ s.cfg.dcap) {c : ResultCode}
    (h : execEnc (loadOperands P K s) = .next (raiseFail c (loadOperands P K s))) :
    CallReturns s P K (sourceEncrypt P K s) c (failureValue s.cfg.failPolicy) :=
  sourceEncrypt_of_execEnc hv hK hP (failureValue_length_le s.cfg) (fun _ => rfl) h

theorem sourceDecrypt_of_raiseFail (hP : P.length ≤ s.cfg.dcap + 3) {c : ResultCode}
    (h : execDec (loadOperands P K s) = .next (raiseFail c (loadOperands P K s))) :
    CallReturns s P K (sourceDecrypt P K s) c (failureValue s.cfg.failPolicy) :=
  sourceDecrypt_of_execDec hv hK hP (failureValue_length_le s.cfg) (fun _ => rfl) h

end Calls

/-- Settles O43: the call is refused, or ENC fails for want of data, or of keys, or succeeds. -/
theorem sourceEncryptReturns : Obligations.SourceEncryptReturns := by
  intro s P K hv
  split_ifs with hP hK
  · rw [sourceEncrypt, callEncrypt, requireFits_of_lt hP, withLines]
  · rw [sourceEncrypt, callEncrypt, requireFits_of_le (by omega), requireFits_of_lt hK, withLines]
  · have hP : P.length ≤ s.cfg.dcap := by omega
    have hK : K.length ≤ s.cfg.kcap := by omega
    have dlen := toNat_dlen_loadOperands hv (P := P) (by omega) K
    have klen := toNat_klen_loadOperands hv hK P
    rcases Nat.eq_zero_or_pos P.length with hP₀ | hP₀
    · obtain ⟨t, call, code, frame⟩ := sourceEncrypt_of_raiseFail hv hK hP
        (execEnc_of_no_data (dlen.trans hP₀) (klen.trans_le hK))
      exact ⟨_, t, call, fun _ => by omega, fun _ => ⟨code, rfl⟩, fun _ => by omega, frame⟩
    rcases Nat.eq_zero_or_pos K.length with hK₀ | hK₀
    · obtain ⟨t, call, code, frame⟩ := sourceEncrypt_of_raiseFail hv hK hP
        (execEnc_of_no_keys (dlen.symm ▸ hP₀) (dlen.trans_le hP) (klen.trans hK₀))
      exact ⟨_, t, call, fun _ _ => by omega, fun _ => by omega, fun _ _ => ⟨code, rfl⟩, frame⟩
    · obtain ⟨C, hC⟩ := exists_encrypt hP₀ hK₀
      obtain ⟨t, call, code, frame⟩ := sourceEncrypt_of_execEnc hv hK hP (encrypt_length_le_capacity hC hP)
        (absurd rfl) (execEnc_loadOperands hv hP₀ hP hK₀ hK hC)
      exact ⟨C, t, call, fun _ _ => ⟨code, hC⟩, fun _ => by omega, fun _ _ => by omega, frame⟩

/-- Settles O44: the call is refused, or DEC fails for want of keys, of length or of the signature, or succeeds. -/
theorem sourceDecryptReturns : Obligations.SourceDecryptReturns := by
  intro s C K hv
  split_ifs with hC hK
  · rw [sourceDecrypt, callDecrypt, requireFits_of_lt hC, withLines]
  · rw [sourceDecrypt, callDecrypt, requireFits_of_le (by omega), requireFits_of_lt hK, withLines]
  · have hC : C.length ≤ s.cfg.dcap + 3 := by omega
    have hK : K.length ≤ s.cfg.kcap := by omega
    have dlen := toNat_dlen_loadOperands hv hC K
    have klen := toNat_klen_loadOperands hv hK C
    rcases Nat.eq_zero_or_pos K.length with hK₀ | hK₀
    · obtain ⟨t, call, code, frame⟩ := sourceDecrypt_of_raiseFail hv hK hC
        (execDec_of_no_keys (dlen.trans_le hC) (klen.trans hK₀))
      exact ⟨_, t, call, fun _ => by omega, fun _ => ⟨code, rfl⟩, fun _ => by omega, fun _ => by omega, frame⟩
    rcases Nat.lt_or_ge C.length 4 with hC₀ | hC₀
    · obtain ⟨t, call, code, frame⟩ := sourceDecrypt_of_raiseFail hv hK hC
        (execDec_of_short (dlen.trans_lt hC₀) (klen.symm ▸ hK₀) (klen.trans_le hK))
      exact ⟨_, t, call, fun _ _ => by omega, fun _ => by omega, fun _ _ => ⟨code, rfl⟩, fun _ _ => by omega, frame⟩
    cases hs : sigtValidate C with
    | false =>
      obtain ⟨t, call, code, frame⟩ := sourceDecrypt_of_raiseFail hv hK hC
        (execDec_of_unsigned dlen.symm hC₀ hC (klen.symm ▸ hK₀) (klen.trans_le hK) (ibuf_loadOperands_holds C K s) hs)
      exact ⟨_, t, call, fun _ _ => nofun, fun _ => by omega, fun _ _ => by omega, fun _ _ _ => ⟨code, rfl⟩, frame⟩
    | true =>
      obtain ⟨P, hP⟩ := exists_decrypt hC₀ hK₀
      obtain ⟨t, call, code, frame⟩ := sourceDecrypt_of_execDec hv hK hC (decrypt_length_le_capacity hP hC)
        (absurd rfl) (execDec_loadOperands hv hC₀ hC hK₀ hK hs hP)
      exact ⟨P, t, call, fun _ _ _ => ⟨code, hP⟩, fun _ => by omega, fun _ _ => by omega, fun _ _ => nofun, frame⟩

/-- Every byte of the draws lies in the range, and a supplied one within the range stands as it is (R77, R78). -/
theorem exists_getElem?_takeDraws {n k : Nat} {s : State} (hk : k < n) :
    ∃ b, (takeDraws n s).1[k]? = some b ∧ s.cfg.keyMin.val ≤ b.toNat ∧
      ∀ d, s.draws[k]? = some d → s.cfg.keyMin.val ≤ d.toNat → b = d := by
  have hk' : k < (takeDraws n s).1.length := by rwa [takeDraws_length]
  refine ⟨_, List.getElem?_eq_getElem hk', keyMin_le_takeDraws n s (List.getElem_mem hk'), fun d hd hm => ?_⟩
  have supplied := takeDraws_supplied hk hd
  rw [drawInRange_of_le hm, List.getElem?_eq_getElem hk'] at supplied
  exact Option.some.inj supplied

/-- The lines of `generateKeys` set KLEN and run KGEN on it (R52, R76). -/
theorem exists_performAll_generateKeys {s : State} {count : Nat} (hv : s.cfg.Valid) (hg : s.cfg.hasKgen = true)
    (hc : count ≤ s.cfg.kcap) :
    ∃ f, performAll (.regWrite 3 (BitVec.ofNat 32 count) :: scriptKgen) s = .next (setStatus .ok
      { s with
        klen := BitVec.ofNat 32 count
        kbuf := s.kbuf.writeSeq 0 (takeDraws count s).1
        draws := s.draws.drop count
        fresh := f }) := by
  obtain ⟨-, -, hmax⟩ := hv
  let s₀ := storeReg .klen (BitVec.ofNat 32 count) s
  have klen : s₀.klen.toNat = count := toNat_ofNat_word (by omega)
  have source : SameSource s₀ s := ⟨rfl, rfl, rfl⟩
  obtain ⟨f, kgen⟩ := exists_execKgen_eq (s := s₀) hg (klen.trans_le hc)
  rw [klen, source.takeDraws] at kgen
  have store : perform (.regWrite 3 (BitVec.ofNat 32 count)) s = .next s₀ :=
    perform_regWrite (reg := .klen) rfl (by decide) _ s
  have command : perform (.regWrite 0 (encode .kgen)) s₀ = execKgen s₀ :=
    (perform_regWrite_cmd rfl _ s₀).trans (commandWrite_encode (i := .kgen) hg)
  exact ⟨f, (performAll_cons store).trans (performAll_cons (command.trans kgen))⟩

/-- Settles O45: the reads show the draws the lines have written to KBUF. -/
theorem sourceGenerateKeysReturns : Obligations.SourceGenerateKeysReturns := by
  intro s count hv hg
  split_ifs with hc
  · rw [sourceGenerateKeys, callGenerateKeys, requireFits_of_lt hc, withLines]
  · have hc : count ≤ s.cfg.kcap := by omega
    have fits : count < 2 ^ 32 := by
      obtain ⟨-, -, hmax⟩ := hv
      omega
    have hl : (takeDraws count s).1.length = count := takeDraws_length count s
    have holds : (s.kbuf.writeSeq 0 (takeDraws count s).1).Holds (takeDraws count s).1 := Memory.holds_writeSeq _ _
    obtain ⟨f, lines⟩ := exists_performAll_generateKeys hv hg hc
    have call := (withLines_ok (k := showBytes (scriptReads .kbuf 0 (takeDraws count s).1.length)) lines).trans
      (showBytes_scriptReads (sp := .kbuf) (hl.trans_le hc) holds)
    rw [hl] at call
    rw [sourceGenerateKeys, callGenerateKeys, requireFits_of_le hc]
    have status := statusWord_setStatus .ok s
    exact ⟨_, _, call, hl, (statusWord_congr rfl rfl).trans status, toNat_ofNat_word fits, holds, rfl, rfl,
      fun k hk => exists_getElem?_takeDraws hk⟩

end Sys2Proof.Machine

namespace Sys2Proof.Machine

/-! ### The units of the mask, the mirror and the tagger (R57 to R60) -/

theorem xor_xor_cancel_right (a b : Byte) : (a ^^^ b) ^^^ b = a := by
  rw [BitVec.xor_assoc, BitVec.xor_self, BitVec.xor_zero]

/-- Masking twice with one effective key is the identity (R64). -/
theorem xmask_xmask {D EK : List Byte} (h : D.length = EK.length) : xmask (xmask D EK) EK = D := by
  refine List.ext_getElem (by simp [h]) fun i _ _ => ?_
  simp only [xmask, List.getElem_zipWith, xor_xor_cancel_right]

theorem brev_brev (M : List Byte) : brev (brev M) = M := List.reverse_reverse M

/-- The mirror distributes over the mask (R64). -/
theorem brev_xmask {D EK : List Byte} (h : D.length = EK.length) : brev (xmask D EK) = xmask (brev D) (brev EK) :=
  List.reverse_zipWith h

theorem take_sigtAppend (R : List Byte) : (sigtAppend R).take R.length = R := List.take_left

/-- The sequences that validate are those the tagger has signed (R59, R60). -/
theorem sigtValidate_iff_exists_sigtAppend (C : List Byte) : sigtValidate C = true ↔ ∃ R, C = sigtAppend R := by
  simp only [sigtValidate, beq_iff_eq]
  refine ⟨fun h => ⟨C.take (C.length - 3), ?_⟩, fun ⟨R, h⟩ => ?_⟩
  · rw [sigtAppend, ← h, List.take_append_drop]
  · rw [h, sigtAppend_length, Nat.add_sub_cancel, sigtAppend, List.drop_left]

/-- A signed sequence validates (R64). -/
theorem sigtValidate_sigtAppend (R : List Byte) : sigtValidate (sigtAppend R) = true :=
  (sigtValidate_iff_exists_sigtAppend _).2 ⟨R, rfl⟩

/-- Settles O23: the check on the sequence is the check on a buffer that holds it. -/
theorem signatureCheckIsTheLastThreeBytes : Obligations.SignatureCheckIsTheLastThreeBytes := by
  intro C hC
  have held : (Memory.ofSeq 0 C).IsExactly C := Memory.read_ofSeq_zero C
  have cells := sigtValidate_iff_signatureAt (s := { State.reset with ibuf := Memory.ofSeq 0 C }) (by omega)
    fun i _ => held i
  simpa only [SignatureAt, held _] using cells

/-- Settles O24, law by law. -/
theorem lawsOfTheUnits : Obligations.LawsOfTheUnits := by
  refine ⟨fun a b c => ⟨?_, ?_, ?_, ?_, ?_⟩, fun D EK => xmask_xmask, fun M => ⟨brev_brev M, brev_length M⟩,
    fun D E => brev_xmask, fun R _ => ⟨sigtValidate_sigtAppend R, take_sigtAppend R⟩, fun n K EK => ekd_length⟩
  · exact BitVec.xor_comm a b
  · exact BitVec.xor_assoc a b c
  · exact BitVec.xor_zero
  · exact BitVec.xor_self
  · exact xor_xor_cancel_right a b

/-! ### ENC and DEC as compositions (R61) -/

theorem encrypt_of_ekd {P K EK : List Byte} (h : ekd P.length K = some EK) :
    encrypt P K = some (sigtAppend (brev (xmask P EK))) := by
  rw [encrypt, h]

/-- DEC takes the signature off and undoes the mirror and the mask (R61). -/
theorem decrypt_sigtAppend {R K EK : List Byte} (h : ekd R.length K = some EK) :
    decrypt (sigtAppend R) K = some (xmask (brev R) EK) := by
  rw [decrypt, sigtAppend_length, Nat.add_sub_cancel, h, take_sigtAppend]

/-- Settles O25: in both directions the two calls derive one effective key, and the mirror and the mask undo
themselves. -/
theorem encryptAndDecryptAreInverse : Obligations.EncryptAndDecryptAreInverse := by
  refine ⟨fun P K hP hK => ?_, fun C K hC hv hK => ?_⟩
  · obtain ⟨EK, key, len⟩ := exists_ekd hP hK
    have masked : (brev (xmask P EK)).length = P.length := by simp [len]
    refine ⟨_, encrypt_of_ekd key, sigtValidate_sigtAppend _, ?_⟩
    rw [decrypt_sigtAppend (masked.symm ▸ key), brev_brev, xmask_xmask len.symm]
  · obtain ⟨R, rfl⟩ := (sigtValidate_iff_exists_sigtAppend C).1 hv
    have hR : 0 < R.length := by rw [sigtAppend_length] at hC; omega
    obtain ⟨EK, key, len⟩ := exists_ekd hR hK
    have mirrored : (brev R).length = EK.length := (brev_length R).trans len.symm
    have unmasked : (xmask (brev R) EK).length = R.length := by simp [len]
    refine ⟨_, decrypt_sigtAppend key, ?_⟩
    rw [encrypt_of_ekd (unmasked.symm ▸ key), xmask_xmask mirrored, brev_brev]

/-- Settles O46: `encrypt` returns the ciphertext, which is signed and within capacity, so `decrypt` returns its
plaintext. -/
theorem sourceCallsRoundTrip : Obligations.SourceCallsRoundTrip := by
  intro s s' P K hv hcfg hP₀ hP hK₀ hK
  obtain ⟨C, hC, signed, hD⟩ := encryptAndDecryptAreInverse.1 P K hP₀ hK₀
  have hCl := encrypt_length hC
  obtain ⟨t, enc, -⟩ := sourceEncrypt_of_execEnc hv hK hP (encrypt_length_le_capacity hC hP) (absurd rfl)
    (execEnc_loadOperands hv hP₀ hP hK₀ hK hC)
  rw [← hcfg] at hv hP hK
  have hCc : C.length ≤ s'.cfg.dcap + 3 := by omega
  obtain ⟨t', dec, -⟩ := sourceDecrypt_of_execDec hv hK hCc (decrypt_length_le_capacity hD hCc) (absurd rfl)
    (execDec_loadOperands hv (by omega) hCc hK₀ hK signed hD)
  exact ⟨C, t, t', enc, dec⟩

/-! ### The effective key (R53 to R56) -/

theorem ekd_of_le {n : Nat} {K : List Byte} (hn : 0 < n) (h : n ≤ K.length) : ekd n K = some (ekdAcc n K) := by
  rw [ekd, dif_pos ⟨hn, by omega⟩, if_pos h]

theorem ekd_of_lt {n : Nat} {K : List Byte} (hK : 0 < K.length) (h : K.length < n) :
    ekd n K = some (ekdRep n K hK) := by
  rw [ekd, dif_pos ⟨by omega, hK⟩, if_neg (by omega)]

theorem accumulate_append (n k : Nat) (K L ek : List Byte) :
    accumulate n k (K ++ L) ek = accumulate n (k + K.length) L (accumulate n k K ek) := by
  induction K generalizing k ek with
  | nil => rfl
  | cons b K ih =>
    rw [List.cons_append, accumulate, ih, accumulate, List.length_cons, Nat.add_right_comm, Nat.add_assoc]

/-- One more key is combined into the position its index gives (R54). -/
theorem ekdAcc_concat (n : Nat) (K : List Byte) (b : Byte) :
    ekdAcc n (K ++ [b]) = (ekdAcc n K).modify (K.length % n) (· ^^^ b) := by
  rw [ekdAcc, accumulate_append, Nat.zero_add]
  rfl

/-- A key byte 00 changes no effective key on the accumulate path (R66). -/
theorem ekdAcc_concat_zero (n : Nat) (K : List Byte) : ekdAcc n (K ++ [0]) = ekdAcc n K := by
  have keeps : (fun a : Byte => a ^^^ 0) = id := funext fun _ => BitVec.xor_zero
  rw [ekdAcc_concat, keeps, List.modify_id]

/-- Settles O26: the accumulate path is taken with and without the added key. -/
theorem trailingZeroKeyIsInvisible : Obligations.TrailingZeroKeyIsInvisible := by
  intro P K hP hK
  have longer : P.length ≤ (K ++ [0]).length := by simp; omega
  rw [encrypt_of_ekd (ekd_of_le hP hK), encrypt_of_ekd (ekd_of_le hP longer), ekdAcc_concat_zero]

/-- `K[j] XOR K[j + n] XOR ...`, `T` terms; a key beyond the sequence counts as 00. `foldedKey` is this sum with the
number of terms of R56. -/
def strideXor (n : Nat) (K : List Byte) (j T : Nat) : Byte :=
  ((List.range T).map fun t => K.getD (j + t * n) 0).foldl (· ^^^ ·) 0

theorem foldedKey_eq_strideXor (n : Nat) (K : List Byte) (j : Nat) :
    foldedKey n K j = strideXor n K j ((K.length - 1 - j) / n + 1) := rfl

@[simp] theorem strideXor_zero (n : Nat) (K : List Byte) (j : Nat) : strideXor n K j 0 = 0 := rfl

@[simp] theorem strideXor_succ (n : Nat) (K : List Byte) (j T : Nat) :
    strideXor n K j (T + 1) = strideXor n K j T ^^^ K.getD (j + T * n) 0 := by
  simp [strideXor, List.range_succ]

theorem strideXor_one (n : Nat) (K : List Byte) (j : Nat) : strideXor n K j 1 = K.getD j 0 := by
  simp

theorem strideXor_two (n : Nat) (K : List Byte) (j : Nat) :
    strideXor n K j 2 = K.getD j 0 ^^^ K.getD (j + n) 0 := by
  simp

@[simp] theorem strideXor_nil (n j T : Nat) : strideXor n [] j T = 0 := by
  induction T with
  | zero => rfl
  | succ T ih => simp [ih]

theorem getD_concat (K : List Byte) (b : Byte) (i : Nat) :
    (K ++ [b]).getD i 0 = if i = K.length then b else K.getD i 0 := by
  split_ifs with h
  · simp [h]
  · rcases Nat.lt_or_gt_of_ne h with h | h
    · exact List.getD_append K [b] 0 i h
    · rw [List.getD_eq_default _ _ (by simp; omega), List.getD_eq_default _ _ (by omega)]

/-- The index `j + t * n` is that of the key added last exactly where `j` and `t` are its position and its round. -/
theorem add_mul_eq_iff {n j : Nat} (hj : j < n) (t m : Nat) : j + t * n = m ↔ m % n = j ∧ m / n = t := by
  rw [Nat.mul_comm, and_comm, Nat.div_mod_unique (by omega), and_iff_left hj]

/-- One more key is one more term of the sum at its position. -/
theorem strideXor_concat {n j : Nat} (hj : j < n) (K : List Byte) (b : Byte) (T : Nat) :
    strideXor n (K ++ [b]) j T =
      if K.length % n = j ∧ K.length / n < T then strideXor n K j T ^^^ b else strideXor n K j T := by
  induction T with
  | zero => simp
  | succ T ih =>
    rw [strideXor_succ, strideXor_succ, ih, getD_concat]
    simp only [add_mul_eq_iff hj]
    by_cases hr : K.length % n = j
    · rcases Nat.lt_trichotomy (K.length / n) T with hq | hq | hq
      · simp only [hr, hq, hq.ne, Nat.lt_succ_of_lt hq, and_self, and_false, if_true, if_false]
        ac_rfl
      · have unused : K.getD (j + T * n) 0 = 0 := by
          rw [(add_mul_eq_iff hj T _).2 ⟨hr, hq⟩, List.getD_eq_default _ _ (Nat.le_refl _)]
        simp only [hr, hq, unused, Nat.lt_irrefl, Nat.lt_succ_self, and_self, and_false, if_true, if_false]
        exact congrArg (· ^^^ b) BitVec.xor_zero.symm
      · simp [hr, hq.ne', hq.not_gt, show ¬ K.length / n < T + 1 by omega]
    · simp [hr]

/-- The closed form of the accumulate path (R56): each position holds the sum of its keys, whatever further terms, all
00, are added to it. -/
theorem getElem?_ekdAcc {n j T : Nat} (hj : j < n) {K : List Byte} (hT : K.length ≤ j + T * n) :
    (ekdAcc n K)[j]? = some (strideXor n K j T) := by
  induction K using List.reverseRecOn with
  | nil => simp [ekdAcc, accumulate, hj]
  | append_singleton K b ih =>
    have covered : K.length < j + T * n := by simpa using hT
    have round : K.length % n = j → K.length / n < T := fun hr => by
      have index := (add_mul_eq_iff hj (K.length / n) K.length).2 ⟨hr, rfl⟩
      exact Nat.lt_of_mul_lt_mul_right (a := n) (by omega)
    rw [ekdAcc_concat, List.getElem?_modify, ih covered.le, strideXor_concat hj]
    by_cases hr : K.length % n = j
    · simp [hr, round hr]
    · simp [hr]

/-- The number of terms of R56 counts the indices below `m` at one position. -/
theorem lt_terms_iff {n j m : Nat} (hn : 0 < n) (hj : j < m) (t : Nat) :
    t < (m - 1 - j) / n + 1 ↔ j + t * n < m := by
  rw [Nat.lt_succ_iff, Nat.le_div_iff_mul_le hn]
  omega

/-- Each position of the accumulate path holds the closed form (R56). -/
theorem getElem?_ekdAcc_eq_foldedKey {n j : Nat} {K : List Byte} (hj : j < n) (hK : n ≤ K.length) :
    (ekdAcc n K)[j]? = some (foldedKey n K j) := by
  have covered : K.length ≤ j + ((K.length - 1 - j) / n + 1) * n := Nat.le_of_not_lt fun h =>
    Nat.lt_irrefl _ ((lt_terms_iff (by omega) (by omega) _).2 h)
  rw [foldedKey_eq_strideXor, getElem?_ekdAcc hj covered]

/-- At the boundary the effective key is the key sequence (R56). -/
theorem ekdAcc_length_self (K : List Byte) : ekdAcc K.length K = K := by
  refine List.ext_getElem (ekdAcc_length _ K) fun j _ hj => ?_
  rw [List.getElem_eq_iff, getElem?_ekdAcc hj (T := 1) (by omega), strideXor_one, List.getD_eq_getElem _ _ hj]

/-- Between one and two data lengths of keys, the keys beyond the data combine with the first ones (R56). -/
theorem getElem?_ekdAcc_of_le_two_mul {n j : Nat} {K : List Byte} (hj : j < n) (hn : n ≤ K.length)
    (h₂ : K.length ≤ 2 * n) :
    (ekdAcc n K)[j]? = if j < K.length - n then some (K.getD j 0 ^^^ K.getD (j + n) 0) else K[j]? := by
  rw [getElem?_ekdAcc hj (T := 2) (by omega), strideXor_two]
  split_ifs with hw
  · rfl
  · have unused : K.getD (j + n) 0 = 0 := List.getD_eq_default _ _ (by omega)
    rw [unused, List.getD_eq_getElem _ _ (by omega), List.getElem?_eq_getElem (by omega)]
    exact congrArg some BitVec.xor_zero

/-- The closed form of the repeat path (R55, R56). -/
theorem getElem?_ekdRep {n j : Nat} {K : List Byte} (hK : 0 < K.length) (hj : j < n) :
    (ekdRep n K hK)[j]? = K[j % K.length]? := by
  simp [ekdRep, hj, Nat.mod_lt j hK]

/-- Settles O22: the accumulate path has the closed form in general, at the boundary and up to two data lengths of
keys, and the repeat path has its own. -/
theorem effectiveKeyClosedForm : Obligations.EffectiveKeyClosedForm := by
  intro n K hn hK
  rcases Nat.lt_or_ge K.length n with h | h
  · exact ⟨_, ekd_of_lt hK h, ekdRep_length n K hK, fun _ => by omega, fun j hj =>
      ⟨fun _ => by omega, fun _ => getElem?_ekdRep hK hj, fun _ => by omega⟩⟩
  · exact ⟨_, ekd_of_le hn h, ekdAcc_length n K, fun hl => hl ▸ ekdAcc_length_self K, fun j hj =>
      ⟨fun _ => ⟨lt_terms_iff hn (by omega), getElem?_ekdAcc_eq_foldedKey hj h⟩, fun _ => by omega,
        fun _ h₂ => getElem?_ekdAcc_of_le_two_mul hj h h₂.le⟩⟩

end Sys2Proof.Machine

namespace Sys2Proof.Machine

/-! ### ENC: its closed form (R68) and its failures (R89) -/

theorem getElem?_brev {M : List Byte} {j : Nat} (h : j < M.length) : (brev M)[j]? = M[M.length - 1 - j]? :=
  List.getElem?_reverse h

theorem getElem?_xmask {D EK : List Byte} {j : Nat} (hD : j < D.length) (hEK : j < EK.length) :
    (xmask D EK)[j]? = some (D[j] ^^^ EK[j]) := by
  simp [xmask, hD, hEK]

theorem getElem?_sigtAppend_left {R : List Byte} {j : Nat} (h : j < R.length) : (sigtAppend R)[j]? = R[j]? :=
  List.getElem?_append_left h

theorem getElem?_sigtAppend_length_add (R : List Byte) (k : Nat) : (sigtAppend R)[R.length + k]? = SIG[k]? := by
  rw [sigtAppend, List.getElem?_append_right (by omega), Nat.add_sub_cancel_left]

/-- Byte `j` of a ciphertext below its signature (R68). -/
theorem getElem?_sigtAppend_brev_xmask {P EK : List Byte} (len : EK.length = P.length) {j : Nat} (hj : j < P.length) :
    (sigtAppend (brev (xmask P EK)))[j]? = some (P[P.length - 1 - j] ^^^ EK[P.length - 1 - j]) := by
  have masked : (xmask P EK).length = P.length := by simp [len]
  rw [getElem?_sigtAppend_left (by simpa [len] using hj), getElem?_brev (by rwa [masked]), masked,
    getElem?_xmask]

/-- Settles O5: the operands are sequences that the buffers hold, and OBUF holds exactly their ciphertext. -/
theorem encClosedForm : Obligations.EncClosedForm := by
  intro s K hv hd hdc hk hkc written hK hKh
  obtain ⟨P, hP, hPh⟩ := exists_holds_of_written written
  rw [← hP] at hd hdc ⊢
  rw [← hK] at hk hkc
  obtain ⟨EK, key, len⟩ := exists_ekd hd hk
  have cipher := encrypt_of_ekd key
  have cells := Memory.read_ofSeq_zero (sigtAppend (brev (xmask P EK)))
  have masked : (brev (xmask P EK)).length = P.length := by simp [len]
  have signature (k : Nat) : (Memory.ofSeq 0 (sigtAppend (brev (xmask P EK)))).read (P.length + k) = SIG[k]? := by
    rw [cells, ← masked, getElem?_sigtAppend_length_add]
  refine ⟨EK, _, key, execEnc_of_holds hP hK hd hk hdc hkc hPh hKh cipher, statusWord_finish _ s, ?_,
    fun j hj => ⟨P[P.length - 1 - j], EK[P.length - 1 - j], ?_, ?_, ?_⟩, signature 0, signature 1, signature 2,
    fun j hj => ?_, rfl⟩
  · exact (toNat_olen_setResult hv (encrypt_length_le_capacity cipher hdc)).trans (encrypt_length cipher)
  · rw [hPh _ (by omega), List.getElem?_eq_getElem]
  · exact List.getElem?_eq_getElem _
  · exact (cells j).trans (getElem?_sigtAppend_brev_xmask len hj)
  · exact (cells j).trans (List.getElem?_eq_none ((encrypt_length cipher).trans_le hj))

theorem execEnc_of_too_long {s : State} (h : s.dlen.toNat > s.cfg.dcap ∨ s.klen.toNat > s.cfg.kcap) :
    execEnc s = .next (raiseFail .errLen s) := by
  rw [execEnc, if_pos h]

/-- Settles O6: the checks of ENC stand in the order of R89, and each fails by the failure procedure. -/
theorem encFailsInOrder : Obligations.EncFailsInOrder := by
  intro s
  split_ifs with hlen hd
  · exact ⟨_, execEnc_of_too_long hlen, raiseFail_failsTo .errLen s⟩
  · exact ⟨_, execEnc_of_no_data hd (by omega), raiseFail_failsTo .errEmptyData s⟩
  · exact fun hk => ⟨_, execEnc_of_no_keys (by omega) (by omega) hk, raiseFail_failsTo .errEmptyKeys s⟩

/-! ### The codes a command ends with (R67, R71, R76) -/

/-- A command that completes past an operand has read it. -/
theorem exists_of_withSeq_eq_next {s t : State} {sp : Space} {n : Nat} {k : List Byte → Answer}
    (h : withSeq s sp n k = .next t) : ∃ bs, k bs = .next t := by
  rcases withSeq_cases s sp n k with ⟨bs, -, -, e⟩ | ⟨i, -, -, -, e⟩
  · exact ⟨bs, e ▸ h⟩
  · simp [e] at h

theorem code_of_finishWith {r : Option (List Byte)} {s t : State} (h : finishWith r s = .next t) : t.code = .ok := by
  cases r with
  | some bs => cases h; rfl
  | none => cases h

theorem code_of_execEnc {s t : State} (h : execEnc s = .next t) :
    t.code ∈ [.ok, .errLen, .errEmptyData, .errEmptyKeys] := by
  unfold execEnc at h
  split_ifs at h
  · cases h; simp
  · cases h; simp
  · cases h; simp
  · obtain ⟨P, h⟩ := exists_of_withSeq_eq_next h
    obtain ⟨K, h⟩ := exists_of_withSeq_eq_next h
    simp [code_of_finishWith h]

theorem code_of_execDec {s t : State} (h : execDec s = .next t) :
    t.code ∈ [.ok, .errLen, .errEmptyKeys, .errShort, .errSig] := by
  unfold execDec at h
  split_ifs at h
  · cases h; simp
  · cases h; simp
  · cases h; simp
  · obtain ⟨C, h⟩ := exists_of_withSeq_eq_next h
    split_ifs at h
    · obtain ⟨K, h⟩ := exists_of_withSeq_eq_next h
      simp [code_of_finishWith h]
    · cases h; simp

theorem code_of_execKgen {s t : State} (hg : s.cfg.hasKgen = true) (h : execKgen s = .next t) :
    t.code ∈ [.ok, .errLen] := by
  rw [execKgen, if_pos hg] at h
  split_ifs at h
  · cases h; simp
  · cases h; simp

/-- Settles O15, command by command. -/
theorem codesOfEachCommand : Obligations.CodesOfEachCommand :=
  fun _ _ => ⟨code_of_execEnc, code_of_execDec, code_of_execKgen⟩

end Sys2Proof.Machine

namespace Sys2Proof.Machine

/-! ### DEC: its closed form (R72) and its failures (R89) -/

/-- Byte `i` of the plaintext of a signed sequence (R72). -/
theorem getElem?_xmask_brev {R EK : List Byte} (len : EK.length = R.length) {i : Nat} (hi : i < R.length) :
    (xmask (brev R) EK)[i]? = some (R[R.length - 1 - i] ^^^ EK[i]) := by
  have mirrored : (brev R)[i]'(by simpa using hi) = R[R.length - 1 - i] := List.getElem_reverse _
  rw [getElem?_xmask (by simpa using hi) (by omega), mirrored]

/-- Settles O8: the operands are a signed sequence and keys that the buffers hold, and OBUF holds exactly their
plaintext. -/
theorem decClosedForm : Obligations.DecClosedForm := by
  intro s K hv hd hdc hk hkc written signed hK hKh
  obtain ⟨C, hC, hCh⟩ := exists_holds_of_written written
  rw [← hC] at hd hdc signed ⊢
  rw [← hK] at hk hkc
  have valid := (sigtValidate_iff_signatureAt (by omega) hCh).2 signed
  obtain ⟨R, rfl⟩ := (sigtValidate_iff_exists_sigtAppend C).1 valid
  have payload : (sigtAppend R).length - 3 = R.length := by simp
  rw [payload]
  obtain ⟨EK, key, len⟩ := exists_ekd (n := R.length) (by omega) hk
  have plain := decrypt_sigtAppend key
  have plain_length := (decrypt_length plain).trans payload
  have cells := Memory.read_ofSeq_zero (xmask (brev R) EK)
  refine ⟨EK, _, key, execDec_of_holds hC hK hd hk hdc hkc hCh hKh valid plain, statusWord_finish _ s, ?_,
    fun i hi => ⟨R[R.length - 1 - i], EK[i], ?_, ?_, ?_⟩, fun i hi => ?_, rfl⟩
  · exact (toNat_olen_setResult hv (decrypt_length_le_capacity plain hdc)).trans plain_length
  · rw [hCh _ (by omega), getElem?_sigtAppend_left (by omega), List.getElem?_eq_getElem]
  · exact List.getElem?_eq_getElem _
  · exact (cells i).trans (getElem?_xmask_brev len hi)
  · exact (cells i).trans (List.getElem?_eq_none (plain_length.trans_le hi))

theorem execDec_of_too_long {s : State} (h : s.dlen.toNat > s.cfg.dcap + 3 ∨ s.klen.toNat > s.cfg.kcap) :
    execDec s = .next (raiseFail .errLen s) := by
  rw [execDec, if_pos h]

/-- Settles O9: the checks of DEC stand in the order of R89, and each fails by the failure procedure; the signature
is tested on the ciphertext before any cell of KBUF is read. -/
theorem decFailsInOrder : Obligations.DecFailsInOrder := by
  intro s
  split_ifs with hlen hk hd
  · exact ⟨_, execDec_of_too_long hlen, raiseFail_failsTo .errLen s⟩
  · exact ⟨_, execDec_of_no_keys (by omega) hk, raiseFail_failsTo .errEmptyKeys s⟩
  · exact ⟨_, execDec_of_short hd (by omega) (by omega), raiseFail_failsTo .errShort s⟩
  · intro written unsigned
    obtain ⟨C, hC, hCh⟩ := exists_holds_of_written written
    rw [← hC] at unsigned
    have invalid := mt (sigtValidate_iff_signatureAt (by omega) hCh).1 unsigned
    exact ⟨_, execDec_of_unsigned hC (by omega) (by omega) (by omega) (by omega) hCh
      (Bool.eq_false_of_not_eq_true invalid), raiseFail_failsTo .errSig s⟩

/-! ### DEC after ENC (R75) -/

/-- A buffer holds one sequence of each length. -/
theorem Memory.Holds.eq_of_length_eq {m : Memory} {bs cs : List Byte} (hb : m.Holds bs) (hc : m.Holds cs)
    (hl : bs.length = cs.length) : bs = cs :=
  Except.ok.inj ((readSeq_of_holds hl hb).symm.trans (readSeq_of_holds rfl hc))

/-- What a successful ENC has done on the plaintext that IBUF holds (R67). -/
theorem exists_encrypt_of_execEnc_ok {s t : State} {P : List Byte} (hP : P.length = s.dlen.toNat)
    (hPh : s.ibuf.Holds P) (h : execEnc s = .next t) (ok : t.code = .ok) :
    ∃ K C, K.length = s.klen.toNat ∧ 0 < P.length ∧ 0 < K.length ∧ P.length ≤ s.cfg.dcap ∧
      K.length ≤ s.cfg.kcap ∧ s.kbuf.Holds K ∧ encrypt P K = some C ∧ t = finish C s := by
  rcases execEnc_cases s with ⟨c, hc, e⟩ | ⟨P', K, C, hP', hK, hP₀, hK₀, hPc, hKc, hPh', hKh, cipher, e⟩ |
    ⟨i, -, -, e⟩ | ⟨i, -, -, e⟩
  · cases e.symm.trans h
    exact absurd ok hc
  · obtain rfl := hPh.eq_of_length_eq hPh' (hP.trans hP'.symm)
    cases e.symm.trans h
    exact ⟨K, C, hK, hP₀, hK₀, hPc, hKc, hKh, cipher, rfl⟩
  · cases e.symm.trans h
  · cases e.symm.trans h

/-- Settles O27: the copied result is the signed ciphertext of `P` under the keys still in KBUF, whose decryption is
`P`. -/
theorem decInvertsEnc : Obligations.DecInvertsEnc := by
  intro s t u P hv hP hPh enc ok hcfg hklen hkbuf hdlen copied
  obtain ⟨K, C, hK, hP₀, hK₀, hPc, hKc, hKh, cipher, rfl⟩ := exists_encrypt_of_execEnc_ok hP hPh enc ok
  obtain ⟨_, cipher', signed, plain⟩ := encryptAndDecryptAreInverse.1 P K hP₀ hK₀
  obtain rfl := Option.some.inj (cipher.symm.trans cipher')
  have hCl := encrypt_length cipher
  have olen : (finish C s).olen.toNat = C.length := toNat_olen_setResult hv (encrypt_length_le_capacity cipher hPc)
  have hC : C.length = u.dlen.toNat := by rw [hdlen, olen]
  have hCh : u.ibuf.Holds C := fun j hj => (copied j (olen.symm ▸ hj)).trans (Memory.read_ofSeq_zero C j)
  rw [← finish_cfg C s, ← hcfg] at hv hPc hKc
  rw [← finish_klen C s, ← hklen] at hK
  rw [← finish_kbuf C s, ← hkbuf] at hKh
  have hCc : C.length ≤ u.cfg.dcap + 3 := by omega
  exact ⟨_, execDec_of_holds hC hK (by omega) hK₀ hCc hKc hCh hKh signed plain, statusWord_finish P u,
    toNat_olen_setResult hv (decrypt_length_le_capacity plain hCc), Memory.read_ofSeq_zero P⟩

end Sys2Proof.Machine

namespace Sys2Proof.Machine

/-! ### KGEN: the keys it draws (R76 to R78), its frame, its failures, and ENC after it (R80) -/

/-- A sequence written from cell 0 on leaves the cells at and above its length as they were. -/
theorem Memory.read_writeSeq_of_length_le (m : Memory) {bs : List Byte} {k : Nat} (h : bs.length ≤ k) :
    (m.writeSeq 0 bs).read k = m.read k := by
  rw [Memory.read_writeSeq, if_neg (by omega)]

/-- The draws of KGEN leave KBUF at and above the count as it was (R76). -/
theorem read_writeSeq_takeDraws_of_le (s : State) {k : Nat} (h : s.klen.toNat ≤ k) :
    (s.kbuf.writeSeq 0 (takeDraws s.klen.toNat s).1).read k = s.kbuf.read k :=
  Memory.read_writeSeq_of_length_le _ ((takeDraws_length _ s).trans_le h)

/-- Everything a KGEN that completes can have done: fail with a code, or write its draws to KBUF (R76). -/
theorem execKgen_next_cases {s t : State} (h : execKgen s = .next t) :
    (∃ c, c ≠ .ok ∧ t = raiseFail c s) ∨
    (s.klen.toNat ≤ s.cfg.kcap ∧ ∃ f, t = setStatus .ok
      { s with
        kbuf := s.kbuf.writeSeq 0 (takeDraws s.klen.toNat s).1
        draws := s.draws.drop s.klen.toNat
        fresh := f }) := by
  rcases execKgen_cases s with ⟨c, hc, e⟩ | ⟨-, hk, f, e⟩
  · exact .inl ⟨c, hc, Host.Outcome.next.inj (h.symm.trans e)⟩
  · exact .inr ⟨hk, f, Host.Outcome.next.inj (h.symm.trans e)⟩

/-- Settles O11: the next state of KGEN past its checks, read cell by cell. -/
theorem kgenDrawsTheKeys : Obligations.KgenDrawsTheKeys := by
  intro s hg hk
  obtain ⟨f, kgen⟩ := exists_execKgen_eq hg hk
  refine ⟨_, kgen, statusWord_setStatus .ok _, fun k below => ?_, fun k above => ?_, rfl, rfl⟩
  · obtain ⟨b, draw, range⟩ := exists_getElem?_takeDraws (s := s) below
    have cell := Memory.holds_writeSeq s.kbuf (takeDraws s.klen.toNat s).1 k (by rwa [takeDraws_length])
    exact ⟨b, cell.trans draw, range⟩
  · exact read_writeSeq_takeDraws_of_le s above

/-- Settles O13: a failure writes STATUS, OLEN and OBUF, a success STATUS, KBUF below the count and the draws. -/
theorem kgenFrame : Obligations.KgenFrame := by
  intro s t h
  rcases execKgen_next_cases h with ⟨c, hc, rfl⟩ | ⟨-, f, rfl⟩
  · exact ⟨fun _ _ => rfl, fun ok => absurd ok hc, fun _ => ⟨rfl, rfl, rfl⟩, rfl⟩
  · exact ⟨fun _ above => read_writeSeq_takeDraws_of_le s above, fun _ => ⟨rfl, rfl⟩, fun fail => absurd rfl fail, rfl⟩

/-- Settles O14: the key sequence is the draws of KGEN, which KBUF holds when ENC reads it. -/
theorem encRunsOnGeneratedKeys : Obligations.EncRunsOnGeneratedKeys := by
  intro s t P kgen ok hk₀ hP hP₀ hPc hPh
  rcases execKgen_next_cases kgen with ⟨c, hc, rfl⟩ | ⟨hk, f, rfl⟩
  · exact absurd ok hc
  · have hK : (takeDraws s.klen.toNat s).1.length = s.klen.toNat := takeDraws_length _ s
    have hKh := Memory.holds_writeSeq s.kbuf (takeDraws s.klen.toNat s).1
    have hK₀ := hk₀.trans_eq hK.symm
    obtain ⟨C, cipher⟩ := exists_encrypt hP₀ hK₀
    exact ⟨_, C, _, hK, hKh, cipher, execEnc_of_holds hP hK hP₀ hK₀ hPc (hK.trans_le hk) hPh hKh cipher, rfl,
      statusWord_finish C _, Memory.read_ofSeq_zero C, rfl⟩

/-- KGEN with a count above the capacity runs the failure procedure (R76). -/
theorem execKgen_of_too_long {s : State} (hg : s.cfg.hasKgen = true) (h : s.klen.toNat > s.cfg.kcap) :
    execKgen s = .next (raiseFail .errLen s) := by
  rw [execKgen, if_pos hg, if_pos h]

/-- KGEN on an instance that has no KGEN runs the failure procedure (R45; log entry 9). -/
theorem execKgen_of_absent {s : State} (hg : s.cfg.hasKgen = false) :
    execKgen s = .next (raiseFail .errIllcmd s) := by
  rw [execKgen, if_neg (by simp [hg])]

/-- Settles O12: each clause is one run of the failure procedure. -/
theorem kgenFails : Obligations.KgenFails := fun s =>
  ⟨fun hg hk => ⟨_, execKgen_of_too_long hg hk, raiseFail_failsTo .errLen s⟩,
    fun hg => ⟨_, execKgen_of_absent hg, raiseFail_failsTo .errIllcmd s⟩⟩

end Sys2Proof.Machine

namespace Sys2Proof.Machine

/-! ### The failure procedure (R90) and its value under the marker policy (R91) -/

/-- Settles O16: of the ways a command completes, only the failure procedure leaves a code other than OK. -/
theorem everyFailureIsTheFailureProcedure : Obligations.EveryFailureIsTheFailureProcedure := by
  intro i s t he fail
  rcases exec_next_cases he with ⟨c, -, rfl⟩ | ⟨-, bs, -, -, rfl⟩ | ⟨-, -, f, rfl⟩
  · exact raiseFail_failsTo c s
  · exact absurd (finish_code bs s) fail
  · exact absurd (setStatus_code .ok _) fail

/-- A buffer holds exactly one sequence. -/
theorem Memory.IsExactly.eq {m : Memory} {bs cs : List Byte} (hb : m.IsExactly bs) (hc : m.IsExactly cs) : bs = cs :=
  List.ext_getElem? fun i => (hb i).symm.trans (hc i)

/-- Every ciphertext is signed (R61). -/
theorem sigtValidate_of_encrypt {P K C : List Byte} (h : encrypt P K = some C) : sigtValidate C = true := by
  unfold encrypt at h
  split at h
  · cases h
    exact sigtValidate_sigtAppend _
  · cases h

/-- Everything an ENC that completes can have done: fail with a code, or leave a signed ciphertext (R67). -/
theorem execEnc_next_cases {s t : State} (h : execEnc s = .next t) :
    (∃ c, c ≠ .ok ∧ t = raiseFail c s) ∨ ∃ C, sigtValidate C = true ∧ t = finish C s := by
  rcases execEnc_cases s with ⟨c, hc, e⟩ | ⟨P, K, C, -, -, -, -, -, -, -, -, cipher, e⟩ | ⟨i, -, -, e⟩ | ⟨i, -, -, e⟩
  · exact .inl ⟨c, hc, Host.Outcome.next.inj (h.symm.trans e)⟩
  · exact .inr ⟨C, sigtValidate_of_encrypt cipher, Host.Outcome.next.inj (h.symm.trans e)⟩
  · cases e.symm.trans h
  · cases e.symm.trans h

/-- The marker does not end in SIG, so it is no ciphertext (R91). -/
theorem sigtValidate_marker : sigtValidate MARKER = false := by decide

/-- Settles O21: a failure leaves the marker, a success a signed sequence, and the marker is not signed. -/
theorem markerIsNoCiphertext : Obligations.MarkerIsNoCiphertext := by
  intro s t policy enc
  rcases execEnc_next_cases enc with ⟨c, hc, rfl⟩ | ⟨C, signed, rfl⟩
  · obtain ⟨-, -, marker, -⟩ := raiseFail_failsTo c s
    exact iff_of_true (marker policy).2 hc
  · have held : (finish C s).obuf.IsExactly C := Memory.read_ofSeq_zero C
    refine iff_of_false (fun marker => ?_) (absurd (finish_code C s))
    rw [held.eq marker, sigtValidate_marker] at signed
    cases signed

end Sys2Proof.Machine

namespace Sys2Proof.Machine

/-! ### DONE outlives every step but reset (R98) -/

/-- A command that completes sets DONE, whether it fails, leaves a result or draws keys (R17). -/
theorem done_of_exec {i : Instr} {s t : State} (h : exec i s = .next t) : t.done = true := by
  rcases exec_next_cases h with ⟨c, -, rfl⟩ | ⟨-, bs, -, -, rfl⟩ | ⟨-, -, f, rfl⟩
  · exact raiseFail_done c s
  · exact finish_done bs s
  · exact setStatus_done .ok _

/-- A write of CMD that completes sets DONE, a write of a reserved word included (R17, R45). -/
theorem done_of_commandWrite {v : Word} {s t : State} (h : commandWrite v s = .next t) : t.done = true := by
  cases hd : decode s.cfg v with
  | ok i => exact done_of_exec ((commandWrite_of_decode hd).symm.trans h)
  | error e =>
    obtain rfl := Host.Outcome.next.inj ((commandWrite_of_reserved hd).symm.trans h)
    exact raiseFail_done .errIllcmd s

/-- The STATUS word determines DONE, its bit 4 (R16). -/
theorem done_eq_of_statusWord_eq {s t : State} (h : statusWord t = statusWord s) : t.done = s.done := by
  have bit_four (u : State) : (statusWord u).getLsbD 4 = u.done := (fieldsOfStatus u).2.1
  rw [← bit_four t, h, bit_four s]

/-- Settles O39: a write of CMD sets DONE, and a step that is neither such a write nor reset leaves STATUS. -/
theorem onlyResetClearsDone : Obligations.OnlyResetClearsDone := by
  intro s t h notReset
  have command (v : Word) (rest : List Transaction) (hp : s.pending = .regWrite 0 v :: rest) : t.done = true :=
    done_of_commandWrite ((step_of_command_pending hp).symm.trans h)
  refine ⟨fun wasDone => ?_, command⟩
  by_cases isCommand : ∃ v rest, s.pending = .regWrite 0 v :: rest
  · obtain ⟨v, rest, hp⟩ := isCommand
    exact command v rest hp
  · obtain ⟨status, -, -⟩ :=
      onlyCommandsChangeTheResult s t h (fun v rest hp => isCommand ⟨v, rest, hp⟩) notReset
    exact (done_eq_of_statusWord_eq status).trans wasDone

/-! ### The reset event (R97) and the commands straight after it (R100) -/

/-- STATUS reads 0 where CODE is OK and DONE is 0 (R16). -/
theorem statusWord_eq_zero {s : State} (hc : s.code = .ok) (hd : s.done = false) : statusWord s = 0 := by
  rw [statusWord, hc, hd]
  decide

@[simp] theorem buffer_applyReset (s : State) (sp : Space) : buffer (applyReset s) sp = [] := by
  cases sp <;> rfl

/-- Settles O33: the step performs the reset event, which empties every buffer. -/
theorem resetTransaction : Obligations.ResetTransaction := by
  intro s rest hp
  refine ⟨applyReset { s with pending := rest }, step_of_pending hp, ?_, rfl, rfl, rfl, fun sp i => ?_, rfl⟩
  · exact statusWord_eq_zero (applyReset_code _) (applyReset_done _)
  · rw [buffer_applyReset, Memory.read_nil]

/-- Settles O35: after reset DLEN and KLEN are 0, so ENC fails for want of data and DEC for want of keys, and KGEN
succeeds with no key to write. -/
theorem commandsStraightAfterReset : Obligations.CommandsStraightAfterReset := by
  intro c
  have noKeys : (State.resetOf c).klen.toNat ≤ c.kcap := Nat.zero_le _
  refine ⟨?_, ?_, fun hg => ?_⟩
  · exact ⟨_, execEnc_of_no_data rfl noKeys, statusWord_setStatus .errEmptyData _⟩
  · exact ⟨_, execDec_of_no_keys (Nat.zero_le _) rfl, statusWord_setStatus .errEmptyKeys _⟩
  · obtain ⟨f, success⟩ := exists_execKgen_eq (s := State.resetOf c) hg noKeys
    exact ⟨_, success, statusWord_setStatus .ok _, rfl⟩

end Sys2Proof.Machine
